-- ==== Sys2Proof/Word.lean ====
section
/-! DEFINITION. The bit-vector types of the NETINT codec (spec/00_scope.md R9, R10, R11; spec/30_encoding.md R80). -/

namespace Sys2Proof

/-- A stream byte, the spec's `u8` (R10). -/
abbrev Byte := BitVec 8

/-- A Value: an unsigned 64-bit number, every pattern of which is legal (R7, R10, R185). -/
abbrev Value := BitVec 64

/-- The header byte `HDR[7:0]` of a command word (R80). -/
abbrev Header := BitVec 8

/-- A command word `CW72`: `CW[71:64]` is the header byte, `CW[63:0]` the operand (R80). -/
abbrev CmdWord := BitVec 72

end Sys2Proof
end

