-- ==== Sys2Proof/Syntax.lean ====
section
/-! DEFINITION. The seven commands (spec/00_scope.md R3; spec/30_encoding.md R84). -/

namespace Sys2Proof

/-- The commands, each with the operands the block uses (R82): operand bits a command ignores (R83) are no
part of it. A field length is the natural number the spec calls `L`; `Instr.wf` says which lengths a
command word can carry. -/
inductive Instr where
  /-- `squirt_byte b`: write one raw byte (R120). -/
  | squirtByte (b : Byte)
  /-- `squirt_int v, L`: write a value as an L-byte big-endian field (R140). -/
  | squirtInt (value : Value) (len : Nat)
  /-- `squirt_fixed32 v`: write the low 32 bits of a value, big-endian (R148). -/
  | squirtFixed32 (value : Value)
  /-- `suck_byte`: read one byte (R126). -/
  | suckByte
  /-- `suck_int L`: read an L-byte big-endian field, all or nothing (R160). -/
  | suckInt (len : Nat)
  /-- `suck_fixed32`: read a 4-byte big-endian field, all or nothing (R168). -/
  | suckFixed32
  /-- `select_length v`: the canonical wire length of a value (R110). -/
  | selectLength (value : Value)
deriving DecidableEq, Repr

/-- The command named by a header byte, without its operands (R84, R85). -/
inductive Opcode where
  | squirtByte | squirtInt | squirtFixed32 | suckByte | suckInt | suckFixed32 | selectLength
deriving DecidableEq, Repr

end Sys2Proof
end

