-- ==== Sys2Proof/WellFormed.lean ====
section
/-! DEFINITION. Which commands a command word can carry (spec/30_encoding.md R81, R91). -/

namespace Sys2Proof

/-- A length operand fits the 4-bit field `LEN`: "L in 0..15" (R81, R91). Lengths outside 1, 2, 4, 8 are
well-formed: they are legal encodings that raise BAD_LENGTH when performed (R86). -/
def lenFits (len : Nat) : Bool := decide (len < 16)

/-- The command has an encoding (R91). -/
def Instr.wf : Instr → Bool
  | .squirtByte _ => true
  | .squirtInt _ len => lenFits len
  | .squirtFixed32 _ => true
  | .suckByte => true
  | .suckInt len => lenFits len
  | .suckFixed32 => true
  | .selectLength _ => true

end Sys2Proof
end

