-- ==== Sys2Proof/Decode.lean ====
section
/-! DEFINITION. The decoder of command words, total, and the encoder (spec/30_encoding.md R80 to R93). -/

namespace Sys2Proof

/-! ## The fields of a command word -/

/-- `HDR = CW[71:64]` (R80). -/
def cmdHdr (cw : CmdWord) : Header := cw.extractLsb' 64 8

/-- `OPND = CW[63:0]` (R80). -/
def cmdOpnd (cw : CmdWord) : Value := cw.extractLsb' 0 64

/-- `OP = HDR[7:4]` (R81). -/
def hdrOp (hdr : Header) : BitVec 4 := hdr.extractLsb' 4 4

/-- `LEN = HDR[3:0]` (R81). -/
def hdrLen (hdr : Header) : BitVec 4 := hdr.extractLsb' 0 4

/-- A command word from its header and operand (R80). -/
def mkCmd (hdr : Header) (opnd : Value) : CmdWord := hdr ++ opnd

/-! ## The decoder -/

/-- Why a header byte names no command (R87). -/
inductive IllegalHeader where
  /-- `OP` is 0x0 or 0x8 to 0xF. -/
  | opNotAssigned (op : BitVec 4)
  /-- A fixed-length command with `LEN` other than 0000. -/
  | lenNotZero (opcode : Opcode) (len : BitVec 4)
deriving DecidableEq, Repr

/-- A command whose `LEN` must be 0000 (R81, R85). -/
def fixedLen (opcode : Opcode) (len : BitVec 4) : Except IllegalHeader Opcode :=
  if len = 0#4 then .ok opcode else .error (.lenNotZero opcode len)

/-- The decoder: "a total function of the header byte; `OPND` plays no part in decoding" (R85). -/
def decodeHeader (hdr : Header) : Except IllegalHeader Opcode :=
  match (hdrOp hdr).toNat with
  | 1 => fixedLen .squirtByte (hdrLen hdr)
  | 2 => .ok .squirtInt
  | 3 => fixedLen .squirtFixed32 (hdrLen hdr)
  | 4 => fixedLen .suckByte (hdrLen hdr)
  | 5 => .ok .suckInt
  | 6 => fixedLen .suckFixed32 (hdrLen hdr)
  | 7 => fixedLen .selectLength (hdrLen hdr)
  | _ => .error (.opNotAssigned (hdrOp hdr))

/-- Operand assembly, "with no sign extension and no scaling anywhere" (R82). The operand bits R83 names
are dropped here. -/
def withOperands (opcode : Opcode) (len : BitVec 4) (opnd : Value) : Instr :=
  match opcode with
  | .squirtByte => .squirtByte (opnd.extractLsb' 0 8)
  | .squirtInt => .squirtInt opnd len.toNat
  | .squirtFixed32 => .squirtFixed32 opnd
  | .suckByte => .suckByte
  | .suckInt => .suckInt len.toNat
  | .suckFixed32 => .suckFixed32
  | .selectLength => .selectLength opnd

/-- A command word decodes to a command or is illegal, by name (R85, R87). -/
def decode (cw : CmdWord) : Except IllegalHeader Instr :=
  match decodeHeader (cmdHdr cw) with
  | .ok opcode => .ok (withOperands opcode (hdrLen (cmdHdr cw)) (cmdOpnd cw))
  | .error e => .error e

/-! ## The encoder -/

/-- The `OP` field of a command (R84). -/
def Opcode.op : Opcode → BitVec 4
  | .squirtByte => 0x1#4
  | .squirtInt => 0x2#4
  | .squirtFixed32 => 0x3#4
  | .suckByte => 0x4#4
  | .suckInt => 0x5#4
  | .suckFixed32 => 0x6#4
  | .selectLength => 0x7#4

/-- The command a term stands for, without operands. -/
def Instr.opcode : Instr → Opcode
  | .squirtByte _ => .squirtByte
  | .squirtInt _ _ => .squirtInt
  | .squirtFixed32 _ => .squirtFixed32
  | .suckByte => .suckByte
  | .suckInt _ => .suckInt
  | .suckFixed32 => .suckFixed32
  | .selectLength _ => .selectLength

/-- The `LEN` field the assembler writes (R91). -/
def Instr.lenField : Instr → BitVec 4
  | .squirtInt _ len => BitVec.ofNat 4 len
  | .suckInt len => BitVec.ofNat 4 len
  | .squirtByte _ => 0#4
  | .squirtFixed32 _ => 0#4
  | .suckByte => 0#4
  | .suckFixed32 => 0#4
  | .selectLength _ => 0#4

/-- The operand the assembler writes, every ignored bit zero (R91, R92). -/
def Instr.opndField : Instr → Value
  | .squirtByte b => b.setWidth 64
  | .squirtInt v _ => v
  | .squirtFixed32 v => v
  | .suckByte => 0#64
  | .suckInt _ => 0#64
  | .suckFixed32 => 0#64
  | .selectLength v => v

/-- The one encoding of a well-formed command (R91, R92). -/
def encode (i : Instr) : CmdWord := mkCmd (i.opcode.op ++ i.lenField) i.opndField

/-- The operand bits a command uses (R82, R83). -/
def Opcode.usedBits : Opcode → Value
  | .squirtByte => 0xFF#64
  | .squirtInt => BitVec.allOnes 64
  | .squirtFixed32 => BitVec.allOnes 64
  | .suckByte => 0#64
  | .suckInt => 0#64
  | .suckFixed32 => 0#64
  | .selectLength => BitVec.allOnes 64

/-! ## The opcode table's numbering of a command word's bits -/

/-- Byte `i` of a table word, counting from its least significant byte. -/
def tableByte (v i : Nat) : Byte := BitVec.ofNat 8 (v / 2 ^ (8 * i))

/-- The command word whose listing (R60: the header byte first, then the operand, most significant byte
first) is the bytes of `w` from its least significant byte on; bits at and above `nbits` are 0.
DEDUCED (notes/assumptions/11.md) from the table's rows, whose bits 7 to 0 are the header byte. -/
def tableWord (nbits w : Nat) : CmdWord :=
  let v := w % 2 ^ nbits
  tableByte v 0 ++ tableByte v 1 ++ tableByte v 2 ++ tableByte v 3 ++ tableByte v 4 ++ tableByte v 5 ++
    tableByte v 6 ++ tableByte v 7 ++ tableByte v 8

/-- What the decoder reads from a table word. -/
def decodeTableWord (nbits w : Nat) : Option Instr :=
  match decode (tableWord nbits w) with
  | .ok i => some i
  | .error _ => none

end Sys2Proof
end

