-- ==== Sys2Proof/Machine/Operands.lean ====
section
/-! DEFINITION. Lengths, and how a field's bytes and its value give one another (spec/00_scope.md R7, R13, R14;
spec/20_memory.md R57, R58; the rules of the spec's files 40 to 43). -/

namespace Sys2Proof.Machine

/-- "One of the four canonical sizes 1, 2, 4, 8 bytes; never any other value in this codec" (R7). -/
inductive Length where
  | one | two | four | eight
deriving DecidableEq, Repr

/-- The number of bytes of a length. -/
def Length.bytes : Length → Nat
  | .one => 1
  | .two => 2
  | .four => 4
  | .eight => 8

/-- The length a command names, if it is one of 1, 2, 4, 8 (R184). -/
def lengthOf? (len : Nat) : Option Length :=
  match len with
  | 1 => some .one
  | 2 => some .two
  | 4 => some .four
  | 8 => some .eight
  | _ => none

/-! ## Bit counts -/

/-- `bitlength(v)`: the smallest n in 0..64 with v < 2^n (R13; the definition is general knowledge by the spec's
own word, notes/assumptions/14.md). -/
def bitlength (v : Value) : Nat := ((List.range 65).find? (fun n => decide (v.toNat < 2 ^ n))).getD 64

/-- `minbytes(v) = max(1, ceil(bitlength(v) / 8))` (R14). -/
def minbytes (v : Value) : Nat := max 1 ((bitlength v + 7) / 8)

/-! ## SELECT_LENGTH -/

/-- The canonical wire length of a value (R110). The rounding up to the next of 1, 2, 4, 8 is normative (R113). -/
def canonicalLength (v : Value) : Length :=
  if v.extractLsb' 8 56 = 0#56 then .one
  else if v.extractLsb' 16 48 = 0#48 then .two
  else if v.extractLsb' 32 32 = 0#32 then .four
  else .eight

/-! ## Value to bytes -/

/-- Byte `i` of the L-byte field of `v`: `v[8*(L-i)-1 : 8*(L-1-i)]` (R141). -/
def fieldByte (len : Length) (v : Value) (i : Nat) : Byte := v.extractLsb' (8 * (len.bytes - 1 - i)) 8

/-- The L-byte big-endian field of a value, its most significant byte first; higher bits are dropped (R140, R142). -/
def fieldBytes (len : Length) (v : Value) : List Byte := (List.range len.bytes).map (fieldByte len v)

/-- The 4-byte field SQUIRT_FIXED32 writes: `[v[31:24], v[23:16], v[15:8], v[7:0]]` (R148). -/
def fixed32Bytes (v : Value) : List Byte :=
  [v.extractLsb' 24 8, v.extractLsb' 16 8, v.extractLsb' 8 8, v.extractLsb' 0 8]

/-! ## Bytes to value -/

/-- The sum over i of `byte[i] << (8 * (length-1-i))`, over natural numbers (R10, R58, R161). -/
def bigEndianNat : List Byte → Nat
  | [] => 0
  | b :: bs => b.toNat * 2 ^ (8 * bs.length) + bigEndianNat bs

/-- The value SUCK_INT assembles (R161). -/
def fieldValue (bs : List Byte) : Value := BitVec.ofNat 64 (bigEndianNat bs)

/-- The value SUCK_BYTE gives: its one byte, zero-extended (R126). -/
def byteValue (bs : List Byte) : Value := (bs.getD 0 0#8).setWidth 64

/-- The value SUCK_FIXED32 gives: 32 bits from four bytes, zero-extended (R168). -/
def fixed32Value (bs : List Byte) : Value :=
  let u32 (i : Nat) : BitVec 32 := (bs.getD i 0#8).setWidth 32
  ((u32 0 <<< 24) ||| (u32 1 <<< 16) ||| (u32 2 <<< 8) ||| u32 3).setWidth 64

end Sys2Proof.Machine
end

