-- ==== Sys2Proof/Config.lean ====
section
/-! DEFINITION. The implementation parameters of the codec (spec/00_scope.md R7). -/

namespace Sys2Proof

/-- The one parameter the spec leaves open, `OUT_CAP` (R7, decision D16): `none` is the unbounded sink of
the source's design, `some c` the permitted variant whose sink holds at most `c` undrained bytes.
DESIGN CHOICE (notes/assumptions/1.md): the value is held in the state, where no step changes it, so that
every statement about every state covers both variants. Safe. -/
structure Config where
  outCap : Option Nat
deriving DecidableEq, Repr

/-- `OUT_CAP` unbounded: the default of decision D16. -/
def Config.unbounded : Config := ⟨none⟩

end Sys2Proof
end

