-- ==== Sys2Proof/Machine/State.lean ====
section
/-! DEFINITION. The state of the codec and of the agents around it, its reset value, and the reasons a step
can stop (spec/10_state.md). -/

namespace Sys2Proof.Machine

/-- The cause codes the spec names (spec/60_exceptions.md R181); `Cause.code` gives their numbers. -/
inductive Cause where
  /-- No fatal condition. -/
  | none
  /-- A command word whose header is illegal (R182). -/
  | illegalCommand
  /-- A field length outside 1, 2, 4, 8 (R184). -/
  | badLength
  /-- Reserved for a negative value; never raised, since no operand is negative (R185). -/
  | negativeValue
  /-- Reserved for a value of more than 64 bits; never raised, since the operand has 64 (R186). -/
  | valueTooWide
deriving DecidableEq, Repr

/-- The stored fields of the 8-bit register STATUS (R24). Bits 3:1 are reserved, read-only and always 0: they
have no storage, and `Status.word`, the one operation that reads the register, gives them as 0 (DEDUCED,
notes/assumptions/9.md). -/
structure Status where
  fatal : Bool
  cause : BitVec 4
deriving DecidableEq, Repr

/-- The response latch RSP (R26): its constructor is RSP_CODE, and RSP_VALUE is present exactly in
`doneValue` (R28; DEDUCED, notes/assumptions/10.md). -/
inductive Resp where
  /-- 00: no command has completed since reset. -/
  | none
  /-- 01: completed, no result value. -/
  | done
  /-- 10: completed with a result value. -/
  | doneValue (v : Value)
  /-- 11: the retry signal. -/
  | blocked
deriving DecidableEq, Repr

/-- Where the caller stands with its command `P[pc]` (R36, R37, R38, R40; the model's own field, DESIGN CHOICE,
notes/assumptions/8.md). -/
inductive CallerPhase where
  /-- `P[pc]` has not been answered with Blocked. -/
  | ready
  /-- `P[pc]` last completed with Blocked, and no producer or consumer step has followed. -/
  | held
  /-- `P[pc]` last completed with Blocked, and a producer or consumer step has followed. -/
  | retrying
  /-- The caller has stopped re-issuing `P[pc]`. -/
  | cancelled
deriving DecidableEq, Repr

/-- A move in the total order of all steps (spec/20_memory.md R66; the agents' moves are those of
spec/10_state.md R40). -/
inductive Move where
  /-- The caller's turn: it issues `P[pc]` to the codec (R36). -/
  | issue
  /-- The producer appends bytes to the input stream (R33). -/
  | produce (bs : List Byte)
  /-- The consumer drains the first `k` bytes of the output sink (R34). -/
  | drain (k : Nat)
  /-- The supervisor resets the codec (R210). -/
  | reset
  /-- The caller stops re-issuing a Blocked command (R38). -/
  | cancel
  /-- The caller starts a new program at its first command (R35, R215). -/
  | load (program : List CmdWord)
deriving DecidableEq, Repr

/-- Everything the spec gives the machine (R21, R35, R7), and two fields of the model's own, `phase` and
`agenda`. -/
structure State where
  /-- The parameter `OUT_CAP`; no step changes it (R7). -/
  cfg : Config
  /-- Input bytes available and not yet consumed, front first (R21). -/
  inbuf : List Byte
  /-- Bytes written and not yet drained, front first (R21). -/
  outbuf : List Byte
  /-- Bytes the consumer has drained, in order (R21). -/
  delivered : List Byte
  /-- STATUS (R24). -/
  status : Status
  /-- RSP (R26). -/
  rsp : Resp
  /-- The caller's program `P` (R35). -/
  program : List CmdWord
  /-- The caller's counter into `P` (R35). -/
  pc : Nat
  /-- The caller's place in the retry discipline (the model's own). -/
  phase : CallerPhase
  /-- The moves still to come, in their order; when it is empty every step is the caller's (the model's own,
  DESIGN CHOICE, notes/assumptions/4.md). -/
  agenda : List Move
deriving DecidableEq, Repr

/-- Why the machine stops. Every one is safe: the model stops where the spec gives no step or no value. -/
inductive Fault where
  /-- Raised by `whenRunning`, for every command word, while `STATUS.FATAL` = 1: "the codec has no step for any
  command word: the block is halted" (R32). Safe. -/
  | halted
  /-- Raised by `readRspValue`, the outside reading of RSP_VALUE, when it holds no value: "a reading of it is a
  fault of the reader" (R28). No command raises it. Safe. -/
  | noResponseValue
deriving DecidableEq, Repr

/-- Why a step is refused. No command is refused; the refusals below `notModelled` answer an agenda that asks
for a move the spec gives no agent. Every one is safe. -/
inductive Refusal where
  /-- Raised by `exec` for an instruction without a meaning; no arm of this model raises it. Safe. -/
  | notModelled (mnemonic : String)
  /-- Raised by `produce`: a producer step appends a non-empty sequence (R33). Safe. -/
  | producesNothing
  /-- Raised by `drain`: the consumer acts only when `OUT_CAP` is bounded (R20, R34, R40). Safe. -/
  | drainsUnboundedSink
  /-- Raised by `drain`: a consumer step moves `k` bytes with 1 ≤ k ≤ len(outbuf) (R34). Safe. -/
  | drainsOutOfRange
  /-- Raised by `cancel`: a caller cancels a Blocked command (R38, R40). Safe. -/
  | cancelsNothing
deriving DecidableEq, Repr

/-- STATUS after reset, 0x00 (R41, R210). -/
def Status.running : Status := ⟨false, 0x0#4⟩

/-- The machine right after reset. STATUS, RSP and pc are as R41, R210 and R35 say. The spec gives no reset value
for the streams, the program and the parameter: they are inputs of a run (R41, R215). DESIGN CHOICE: empty
streams (notes/assumptions/2.md, unsafe), no program (notes/assumptions/3.md), the unbounded sink
(notes/assumptions/1.md), a ready caller (notes/assumptions/8.md), no moves to come
(notes/assumptions/4.md). -/
def State.reset : State :=
  { cfg := Config.unbounded
    inbuf := []
    outbuf := []
    delivered := []
    status := Status.running
    rsp := .none
    program := []
    pc := 0
    phase := .ready
    agenda := [] }

end Sys2Proof.Machine
end

