-- ==== Sys2Proof/Machine/Flags.lean ====
section
/-! DEFINITION. The words of STATUS and RSP, and the operations that read them from outside
(spec/10_state.md R24 to R30; spec/60_exceptions.md R181). The block has no condition codes (R29). -/

namespace Sys2Proof.Machine

/-- The number of a cause (R181). -/
def Cause.code : Cause → BitVec 4
  | .none => 0x0#4
  | .illegalCommand => 0x1#4
  | .badLength => 0x2#4
  | .negativeValue => 0x3#4
  | .valueTooWide => 0x4#4

/-- STATUS after the fatal sequence with a cause: "`FATAL` and `CAUSE` are written together" (R24, R183). -/
def Status.halted (c : Cause) : Status := ⟨true, c.code⟩

/-- STATUS[7:0]: CAUSE in bits 7:4, zeros in the reserved bits 3:1, FATAL in bit 0 (R24). -/
def Status.word (st : Status) : BitVec 8 := st.cause ++ (0#3 : BitVec 3) ++ BitVec.ofBool st.fatal

/-- RSP_CODE (R26). -/
def Resp.code : Resp → BitVec 2
  | .none => 0b00#2
  | .done => 0b01#2
  | .doneValue _ => 0b10#2
  | .blocked => 0b11#2

/-- RSP_VALUE: a value when RSP_CODE is 10, absent otherwise (R28). -/
def Resp.value? : Resp → Option Value
  | .doneValue v => some v
  | .none => Option.none
  | .done => Option.none
  | .blocked => Option.none

/-- The status output: any agent may read it between commands (R25, R30). -/
def readStatus (s : State) : BitVec 8 := s.status.word

/-- The response port's RSP_CODE (R26, R30). -/
def readRspCode (s : State) : BitVec 2 := s.rsp.code

/-- The response port's RSP_VALUE: reading it when it holds no value "is a fault of the reader, never a number"
(R28). -/
def readRspValue (s : State) : Except Fault Value :=
  match s.rsp.value? with
  | some v => .ok v
  | Option.none => .error .noResponseValue

end Sys2Proof.Machine
end

