-- ==== Sys2Proof/Machine/Ops.lean ====
section
/-! DEFINITION. The shared operations of the commands: the response, the stream primitives, the fatal sequence
and reset (spec/00_scope.md R12; spec/20_memory.md R53 to R56; spec/60_exceptions.md R183). -/

namespace Sys2Proof.Machine

/-- The outcome of a step. -/
abbrev Result := Host.Outcome State Fault Refusal

/-! ## Halting -/

/-- A command performs only while `STATUS.FATAL` = 0; halted, it has no step (R31, R32, R187). -/
def whenRunning (s : State) (performed : State) : Result :=
  if s.status.fatal then .fault .halted else .next performed

/-- The fatal sequence, `raise Fatal(c)`: STATUS records the cause, and nothing else changes: no byte is taken or
appended and RSP is not written (R183, R189). -/
def raiseFatal (c : Cause) (s : State) : State := { s with status := Status.halted c }

/-- Reset of the codec, the only way out of the halt: STATUS and RSP take their reset values, the streams are not
changed (R190, R210, R211). -/
def codecReset (s : State) : State := { s with status := Status.running, rsp := .none }

/-! ## The response -/

/-- `respond r`: a command completes, writing RSP (R12, R26, R27). -/
def respond (r : Resp) (s : State) : State := { s with rsp := r }

/-! ## The streams -/

/-- `out_log = delivered ++ outbuf` (R21). -/
def State.outLog (s : State) : List Byte := s.delivered ++ s.outbuf

/-- `ScoopRead(n)`: the first n bytes of the input stream and the state without them, or `none` for Blocked, which
takes nothing (R53). -/
def scoopRead (n : Nat) (s : State) : Option (List Byte × State) :=
  if s.inbuf.length < n then none
  else some (s.inbuf.take n, { s with inbuf := s.inbuf.drop n })

/-- `TubeWrite(bs)`: append to the output sink (R55). -/
def tubeWrite (bs : List Byte) (s : State) : State := { s with outbuf := s.outbuf ++ bs }

/-- A sink of capacity C has room for n more bytes when C − len(outbuf) ≥ n, an unbounded one always (R55, R56). -/
def hasRoom (n : Nat) (s : State) : Bool :=
  match s.cfg.outCap with
  | none => true
  | some c => decide (s.outbuf.length + n ≤ c)

/-! ## What the write and the read commands share -/

/-- Write bytes, all or nothing: Blocked when a bounded sink lacks the room, else append and Done (R56). -/
def squirt (bs : List Byte) (s : State) : State :=
  if hasRoom bs.length s then respond .done (tubeWrite bs s) else respond .blocked s

/-- Read n bytes, all or nothing: Blocked when fewer are there, else their value (R53, R63). -/
def suck (n : Nat) (value : List Byte → Value) (s : State) : State :=
  match scoopRead n s with
  | none => respond .blocked s
  | some (bs, s') => respond (.doneValue (value bs)) s'

end Sys2Proof.Machine
end

