-- ==== Sys2Proof/Machine/ByteCodec.lean ====
section
/-! DEFINITION. SQUIRT_BYTE and SUCK_BYTE (spec/41_byte_codec.md). -/

namespace Sys2Proof.Machine

/-- SQUIRT_BYTE (R120). -/
def execSquirtByte (b : Byte) (s : State) : Result := whenRunning s (squirt [b] s)

/-- SUCK_BYTE (R126). -/
def execSuckByte (s : State) : Result := whenRunning s (suck 1 byteValue s)

end Sys2Proof.Machine
end

