-- ==== Sys2Proof/Machine/IntegerDecoder.lean ====
section
/-! DEFINITION. SUCK_INT and SUCK_FIXED32 (spec/43_integer_decoder.md). -/

namespace Sys2Proof.Machine

/-- SUCK_INT (R160): the length is checked before the input stream is examined. -/
def execSuckInt (len : Nat) (s : State) : Result :=
  whenRunning s (match lengthOf? len with
    | none => raiseFatal .badLength s
    | some l => suck l.bytes fieldValue s)

/-- SUCK_FIXED32 (R168). -/
def execSuckFixed32 (s : State) : Result := whenRunning s (suck 4 fixed32Value s)

end Sys2Proof.Machine
end

