-- ==== Sys2Proof/Machine/IntegerEncoder.lean ====
section
/-! DEFINITION. SQUIRT_INT and SQUIRT_FIXED32 (spec/42_integer_encoder.md). -/

namespace Sys2Proof.Machine

/-- SQUIRT_INT (R140): the length is checked before the sink's room (R145). -/
def execSquirtInt (v : Value) (len : Nat) (s : State) : Result :=
  whenRunning s (match lengthOf? len with
    | none => raiseFatal .badLength s
    | some l => squirt (fieldBytes l v) s)

/-- SQUIRT_FIXED32 (R148). -/
def execSquirtFixed32 (v : Value) (s : State) : Result := whenRunning s (squirt (fixed32Bytes v) s)

end Sys2Proof.Machine
end

