-- ==== Sys2Proof/Machine/LengthSelector.lean ====
section
/-! DEFINITION. SELECT_LENGTH (spec/40_length_selector.md). -/

namespace Sys2Proof.Machine

/-- SELECT_LENGTH (R110): the length, zero-extended, as DoneValue; neither stream is touched. -/
def execSelectLength (v : Value) (s : State) : Result :=
  whenRunning s (respond (.doneValue (BitVec.ofNat 64 (canonicalLength v).bytes)) s)

end Sys2Proof.Machine
end

