-- ==== Sys2Proof/Machine/Dispatch.lean ====
section
/-! DEFINITION. One arm per command (spec/30_encoding.md R84). -/

namespace Sys2Proof.Machine

def exec (i : Instr) (s : State) : Host.Outcome State Fault Refusal :=
  match i with
  | .squirtByte b => Sys2Proof.Machine.execSquirtByte b s
  | .squirtInt v len => Sys2Proof.Machine.execSquirtInt v len s
  | .squirtFixed32 v => Sys2Proof.Machine.execSquirtFixed32 v s
  | .suckByte => Sys2Proof.Machine.execSuckByte s
  | .suckInt len => Sys2Proof.Machine.execSuckInt len s
  | .suckFixed32 => Sys2Proof.Machine.execSuckFixed32 s
  | .selectLength v => Sys2Proof.Machine.execSelectLength v s

end Sys2Proof.Machine
end

