-- ==== Sys2Proof/Machine/Caller.lean ====
section
/-! DEFINITION. Performing a command word, and the caller that issues its program's words
(spec/10_state.md R31, R35 to R38). -/

namespace Sys2Proof.Machine

/-- The codec performs a command word: no step while halted, Fatal(ILLEGAL_COMMAND) for an illegal header, else
the command's own rule (R31, R182, R187). -/
def performWord (cw : CmdWord) (s : State) : Result :=
  match decode cw with
  | .ok i => exec i s
  | .error _ => whenRunning s (raiseFatal .illegalCommand s)

/-- The word the caller presents on the command port: `P[pc]`, unless it has cancelled or its program is at its end
(R35, R36, R38). -/
def nextCommand (s : State) : Option CmdWord :=
  if s.phase = .cancelled then none else s.program[s.pc]?

/-- The caller after its command was performed: Done and DoneValue advance pc; Blocked keeps it, and the identical
word is next; a fatal command gives no response, so the caller stays where it is (R36, R182, R189). -/
def callerAdvance (s : State) : State :=
  if s.status.fatal then s
  else match s.rsp with
    | .done => { s with pc := s.pc + 1, phase := .ready }
    | .doneValue _ => { s with pc := s.pc + 1, phase := .ready }
    | .blocked => { s with phase := .held }
    | .none => s

/-- The caller's turn: it issues `P[pc]` and takes the response. Without a command to issue nothing happens: "the
block performs nothing until the caller issues a command" (R212; DESIGN CHOICE, notes/assumptions/5.md). -/
def issue (s : State) : Result :=
  match nextCommand s with
  | none => .next s
  | some cw =>
    match performWord cw s with
    | .next t => .next (callerAdvance t)
    | .fault f => .fault f
    | .refused r => .refused r

/-- The response the caller receives when it issues from this state; none when nothing is issued, when the codec is
halted and when the command is fatal (R27, R183, R189). -/
def issueResponse (s : State) : Option Resp :=
  match nextCommand s with
  | none => none
  | some cw =>
    match performWord cw s with
    | .next t => if t.status.fatal then none else some t.rsp
    | .fault _ => none
    | .refused _ => none

/-- A program with `cw` at place `pc` and otherwise as it was; a shorter one is filled up with zero words. -/
def placeWord (cw : CmdWord) (pc : Nat) (program : List CmdWord) : List CmdWord :=
  program.take pc ++ List.replicate (pc - program.length) 0#72 ++ cw :: program.drop (pc + 1)

end Sys2Proof.Machine
end

