-- ==== Sys2Proof/Machine/Agents.lean ====
section
/-! DEFINITION. The moves of the agents around the codec (spec/10_state.md R33, R34, R40; spec/20_memory.md R66;
spec/70_reset_and_hazards.md R210, R215). A move the spec gives no agent is refused by name
(DESIGN CHOICE, notes/assumptions/7.md, safe). -/

namespace Sys2Proof.Machine

/-- A producer or consumer step ends the hold on a Blocked command (R37, R38). -/
def CallerPhase.afterStream : CallerPhase → CallerPhase
  | .ready => .ready
  | .held => .retrying
  | .retrying => .retrying
  | .cancelled => .cancelled

/-- The producer's step: `inbuf <- inbuf ++ bs`, bs not empty (R33). -/
def produce (bs : List Byte) (s : State) : Result :=
  if bs = [] then .refused .producesNothing
  else .next { s with inbuf := s.inbuf ++ bs, phase := s.phase.afterStream }

/-- The consumer's step: the first k bytes of `outbuf` move to the end of `delivered`, 1 ≤ k ≤ len(outbuf); it acts
only when `OUT_CAP` is bounded (R20, R34, R40). -/
def drain (k : Nat) (s : State) : Result :=
  if s.cfg.outCap = none then .refused .drainsUnboundedSink
  else if k = 0 ∨ s.outbuf.length < k then .refused .drainsOutOfRange
  else .next { s with delivered := s.delivered ++ s.outbuf.take k, outbuf := s.outbuf.drop k,
                      phase := s.phase.afterStream }

/-- The caller stops re-issuing a Blocked command (R38, R40). -/
def cancel (s : State) : Result :=
  match s.phase with
  | .held => .next { s with phase := .cancelled }
  | .retrying => .next { s with phase := .cancelled }
  | .ready => .refused .cancelsNothing
  | .cancelled => .refused .cancelsNothing

/-- The caller starts a program at its first command (R35: "starting at 0"; R215). The codec and the streams are as
they were (DESIGN CHOICE, notes/assumptions/3.md). -/
def load (program : List CmdWord) (s : State) : Result :=
  .next { s with program := program, pc := 0, phase := .ready }

/-- One move of the total order (R66), taken from a state whose agenda no longer holds it. -/
def takeMove (m : Move) (s : State) : Result :=
  match m with
  | .issue => issue s
  | .produce bs => produce bs s
  | .drain k => drain k s
  | .reset => .next (codecReset s)
  | .cancel => cancel s
  | .load program => load program s

end Sys2Proof.Machine
end

