-- ==== Sys2Proof/Machine/Step.lean ====
section
/-! DEFINITION. One step of the whole machine: the next move of the agenda, or the caller's turn when the agenda
is empty (spec/10_state.md R31; spec/20_memory.md R66). -/

namespace Sys2Proof.Machine

/-- The next step in the total order of all steps (R66). With an empty agenda the caller issues (R36). -/
def step (s : State) : Host.Outcome State Fault Refusal :=
  match s.agenda with
  | [] => issue s
  | m :: rest => takeMove m { s with agenda := rest }

/-- The state with a table word placed as the caller's next command: at `P[pc]`, with no move before it and the
caller not cancelled (notes/assumptions/3.md). It stands for loading a program from outside. -/
def State.withFetchWord (s : State) (nbits w : Nat) : State :=
  { s with program := placeWord (tableWord nbits w) s.pc s.program, phase := .ready, agenda := [] }

end Sys2Proof.Machine
end

