-- ==== Sys2Proof/Safety.lean ====
section
/-! DEFINITION. The terms the claims use: what a command reads and writes, where a run stands and what is observed
of it (spec/10_state.md R38, R39), and the invariants of the machine. -/

namespace Sys2Proof.Machine

/-! ## Widths (spec/20_memory.md R62) -/

/-- One of the lengths 1, 2, 4, 8 (R7). -/
abbrev isLegalLength (len : Nat) : Prop := len = 1 ∨ len = 2 ∨ len = 4 ∨ len = 8

/-- The bytes a read command acquires from the input stream (R62). -/
def readWidth : Instr → Option Nat
  | .suckByte => some 1
  | .suckInt len => some len
  | .suckFixed32 => some 4
  | .squirtByte _ => none
  | .squirtInt _ _ => none
  | .squirtFixed32 _ => none
  | .selectLength _ => none

/-- The bytes a write command appends to the output sink (R62). -/
def writeWidth : Instr → Option Nat
  | .squirtByte _ => some 1
  | .squirtInt _ len => some len
  | .squirtFixed32 _ => some 4
  | .suckByte => none
  | .suckInt _ => none
  | .suckFixed32 => none
  | .selectLength _ => none

/-- The length operand a command carries, where it carries one (R81). -/
def lengthOperand : Instr → Option Nat
  | .squirtInt _ len => some len
  | .suckInt len => some len
  | .squirtByte _ => none
  | .squirtFixed32 _ => none
  | .suckByte => none
  | .suckFixed32 => none
  | .selectLength _ => none

/-- The header bytes that name no command, by the ranges of spec/30_encoding.md R87: `OP` 0x0, `OP` 0x8 to 0xF, and a
non-zero `LEN` with an `OP` other than SQUIRT_INT's and SUCK_INT's. -/
abbrev IsIllegalHeader (hdr : Header) : Prop :=
  hdr.toNat / 16 = 0 ∨ 8 ≤ hdr.toNat / 16 ∨
    (hdr.toNat / 16 ≠ 2 ∧ hdr.toNat / 16 ≠ 5 ∧ hdr.toNat % 16 ≠ 0)

/-- The codec is not halted. -/
abbrev Running (s : State) : Prop := s.status.fatal = false

/-- The natural number a big-endian field of L bytes stands for: the sum over i < L of
`byte[i] << (8 * (L-1-i))` (R58, R161). -/
def bigEndianSum (len : Nat) (bs : List Byte) : Nat :=
  ∑ i ∈ Finset.range len, (bs.getD i 0#8).toNat * 2 ^ (8 * (len - 1 - i))

/-- A sink of capacity C has n free bytes; an unbounded one always has (R55, R56). -/
def RoomFor (n : Nat) (s : State) : Prop := ∀ c, s.cfg.outCap = some c → s.outbuf.length + n ≤ c

/-- A bounded sink of capacity C has fewer than n free bytes (R56). -/
def NoRoomFor (n : Nat) (s : State) : Prop := ∃ c, s.cfg.outCap = some c ∧ c < s.outbuf.length + n

/-! ## Turns -/

/-- It is the caller's turn at s, by an empty agenda or by its head (R36, R66; DESIGN CHOICE, notes/assumptions/4.md); u is
the state with that turn taken off. -/
def CallersTurn (s u : State) : Prop :=
  (s.agenda = [] ∧ u = s) ∨ ∃ rest, s.agenda = .issue :: rest ∧ u = { s with agenda := rest }

/-- On its turn the caller has a word to issue, `P[pc]`, and has not cancelled (R35, R36, R38). -/
def CallerIssues (s u : State) (cw : CmdWord) : Prop :=
  CallersTurn s u ∧ s.phase ≠ .cancelled ∧ s.program[s.pc]? = some cw

/-! ## Runs -/

/-- Where a run stands (R38); `running` is any run that goes on. -/
inductive RunStatus where
  | final | faulted | held | cancelled | running
deriving DecidableEq, Repr

/-- The classification of R38: faulted when FATAL = 1, cancelled when the caller has stopped, final at the end of the
program, held while `P[pc]` last completed with Blocked and no stream step has followed. -/
def runStatus (s : State) : RunStatus :=
  if s.status.fatal then .faulted
  else if s.phase = .cancelled then .cancelled
  else if s.pc = s.program.length then .final
  else if s.phase = .held then .held
  else .running

/-- What is observed of a run (R39). -/
structure Observation where
  status : RunStatus
  responses : List Resp
  outLog : List Byte
  inbuf : List Byte
deriving DecidableEq, Repr

/-- The response the caller receives in the step from this state. -/
def stepResponse (s : State) : Option Resp :=
  match s.agenda with
  | [] => issueResponse s
  | .issue :: rest => issueResponse { s with agenda := rest }
  | .produce _ :: _ => none
  | .drain _ :: _ => none
  | .reset :: _ => none
  | .cancel :: _ => none
  | .load _ :: _ => none

/-- The observation of at most k steps from a state, after the responses already received; it ends where the machine
stops. -/
def observe : Nat → List Resp → State → Observation
  | 0, rs, s => ⟨runStatus s, rs, s.outLog, s.inbuf⟩
  | k + 1, rs, s =>
    match step s with
    | .next t => observe k (rs ++ (stepResponse s).toList) t
    | .fault _ => ⟨runStatus s, rs, s.outLog, s.inbuf⟩
    | .refused _ => ⟨runStatus s, rs, s.outLog, s.inbuf⟩

/-- The launch state of a run (R215). That the caller is then `ready` is the model's (DESIGN CHOICE,
notes/assumptions/8.md). -/
def IsLaunch (s : State) : Prop :=
  readStatus s = 0x00#8 ∧ readRspCode s = 0b00#2 ∧ s.pc = 0 ∧ s.phase = .ready ∧ RoomFor 0 s

/-! ## Invariants -/

/-- What every step keeps. -/
structure MachineInv (s : State) : Prop where
  /-- CAUSE is 0 while FATAL = 0 (R24). -/
  causeClear : s.status.fatal = false → s.status.cause = Cause.none.code
  /-- A halt has one of the two causes that are ever raised (R181, R185, R186). -/
  causeRaised : s.status.fatal = true →
    s.status.cause = Cause.illegalCommand.code ∨ s.status.cause = Cause.badLength.code
  /-- A bounded sink never holds more than its capacity (R56, R215). -/
  capKept : ∀ c, s.cfg.outCap = some c → s.outbuf.length ≤ c
  /-- pc is an index into the program or its end (R35, R38). -/
  pcInProgram : s.pc ≤ s.program.length
  /-- A caller that waits or has cancelled has a command it waits for (R36, R38); `phase`, which says that it waits, is the
  model's (DESIGN CHOICE, notes/assumptions/8.md). -/
  waitsForCommand : s.phase ≠ .ready → s.pc < s.program.length

/-- A held command is really held: the codec is running, and the caller's command, performed now, responds Blocked and
changes nothing but RSP (R37, R38). `held` is a value of `phase`, the model's (DESIGN CHOICE, notes/assumptions/8.md). -/
def HeldBlocks (s : State) : Prop :=
  s.phase = .held → Running s ∧
    ∃ cw, s.program[s.pc]? = some cw ∧ performWord cw s = .next { s with rsp := .blocked }

end Sys2Proof.Machine
end

