-- ==== Sys2Proof/Certificates/Slice0/Obligations.lean ====
section
/-! DEFINITION. The statements for the provers, from the numbered rules of spec/. -/

open Sys2Proof Sys2Proof.Machine

/-! ## Encoding -/

/-- Words of spec/95_test_vectors.md, one for each command, decode to the commands their listings name. -/
def Obligations.WordsWrittenOutDecode : Prop :=
  decode 0x1000000000000001AB#72 = .ok (.squirtByte 0xAB#8) ∧
  decode 0x240000000001020304#72 = .ok (.squirtInt 0x01020304#64 4) ∧
  decode 0x30DEADBEEFCAFEBABE#72 = .ok (.squirtFixed32 0xDEADBEEFCAFEBABE#64) ∧
  decode 0x40FFFFFFFFFFFFFFFF#72 = .ok .suckByte ∧
  decode 0x530000000000000000#72 = .ok (.suckInt 3) ∧
  decode 0x600000000000000000#72 = .ok .suckFixed32 ∧
  decode 0x700000000000012345#72 = .ok (.selectLength 0x12345#64)

/-- R85, with the operands of R82: each `OP` and `LEN` names the command of its row, whatever the operand, and every
other header is illegal. -/
def Obligations.DecoderFollowsTheOpcodeMap : Prop :=
  (∀ opnd, decode (mkCmd 0x10#8 opnd) = .ok (.squirtByte (opnd.extractLsb' 0 8))) ∧
  (∀ (len : BitVec 4) opnd, decode (mkCmd (0x2#4 ++ len) opnd) = .ok (.squirtInt opnd len.toNat)) ∧
  (∀ opnd, decode (mkCmd 0x30#8 opnd) = .ok (.squirtFixed32 opnd)) ∧
  (∀ opnd, decode (mkCmd 0x40#8 opnd) = .ok .suckByte) ∧
  (∀ (len : BitVec 4) opnd, decode (mkCmd (0x5#4 ++ len) opnd) = .ok (.suckInt len.toNat)) ∧
  (∀ opnd, decode (mkCmd 0x60#8 opnd) = .ok .suckFixed32) ∧
  (∀ opnd, decode (mkCmd 0x70#8 opnd) = .ok (.selectLength opnd)) ∧
  (∀ (op len : BitVec 4) opnd,
    (op = 0x0#4 ∨ 8 ≤ op.toNat ∨
      ((op = 0x1#4 ∨ op = 0x3#4 ∨ op = 0x4#4 ∨ op = 0x6#4 ∨ op = 0x7#4) ∧ len ≠ 0x0#4)) →
    ∃ e, decode (mkCmd (op ++ len) opnd) = .error e)

/-- R87 and R182: the illegal headers are exactly the listed ranges; performing one raises Fatal(ILLEGAL_COMMAND),
which records the cause and nothing else, and the caller's pc stays at the word. (Whose turn a step is, and u, the state
with that turn taken, are the model's bookkeeping: notes/assumptions/4.md.) -/
def Obligations.IllegalHeadersHaltTheCodec : Prop :=
  (∀ hdr opnd, (∃ e, decode (mkCmd hdr opnd) = .error e) ↔ IsIllegalHeader hdr) ∧
  (∀ hdr opnd s, IsIllegalHeader hdr → Running s →
    performWord (mkCmd hdr opnd) s = .next { s with status := ⟨true, 0x1#4⟩ }) ∧
  (∀ hdr opnd s u, IsIllegalHeader hdr → Running s → CallerIssues s u (mkCmd hdr opnd) →
    step s = .next { u with status := ⟨true, 0x1#4⟩ })

/-- Decode and encode agree on every well-formed command. -/
def Obligations.DecodeAfterEncodeIsIdentity : Prop :=
  ∀ i : Instr, i.wf = true → decode (encode i) = .ok i

/-- A word that decodes is the encoding of its command but for the operand bits the command ignores. -/
def Obligations.DecodedWordsAreEncodings : Prop :=
  ∀ cw i, decode cw = .ok i →
    i.wf = true ∧ encode i = mkCmd (cmdHdr cw) (cmdOpnd cw &&& i.opcode.usedBits)

/-- R83: the operand bits a command does not use have no effect, on any state, and the encoder writes them as zero. -/
def Obligations.IgnoredOperandBitsHaveNoEffect : Prop :=
  (∀ a b s, a.extractLsb' 0 8 = b.extractLsb' 0 8 →
    performWord (mkCmd 0x10#8 a) s = performWord (mkCmd 0x10#8 b) s) ∧
  (∀ hdr a b s, (hdr = 0x40#8 ∨ hdr = 0x60#8 ∨ hdr.toNat / 16 = 5) →
    performWord (mkCmd hdr a) s = performWord (mkCmd hdr b) s) ∧
  (∀ b, cmdOpnd (encode (.squirtByte b)) &&& 0xFFFFFFFFFFFFFF00#64 = 0#64) ∧
  cmdOpnd (encode .suckByte) = 0#64 ∧
  (∀ len, cmdOpnd (encode (.suckInt len)) = 0#64) ∧
  cmdOpnd (encode .suckFixed32) = 0#64

/-! ## The rule of each command: its encoding, its next state on every running state, its illegal headers -/

/-- R110. The next state is the state before it but for RSP. -/
def Obligations.SelectLengthFollowsItsRule : Prop :=
  (∀ opnd, decode (mkCmd 0x70#8 opnd) = .ok (.selectLength opnd)) ∧
  (∀ v s, Running s →
    exec (.selectLength v) s = .next { s with
      rsp := .doneValue (if v.toNat < 2 ^ 8 then 1#64 else if v.toNat < 2 ^ 16 then 2#64
        else if v.toNat < 2 ^ 32 then 4#64 else 8#64) }) ∧
  (∀ (len : BitVec 4) opnd s, len ≠ 0x0#4 → Running s →
    performWord (mkCmd (0x7#4 ++ len) opnd) s = .next { s with status := ⟨true, 0x1#4⟩ })

/-- R120. The next state is the state before it but for RSP and, when the byte is written, the byte at the end of the
output sink. -/
def Obligations.SquirtByteFollowsItsRule : Prop :=
  (∀ opnd, decode (mkCmd 0x10#8 opnd) = .ok (.squirtByte (opnd.extractLsb' 0 8))) ∧
  (∀ b s, Running s → RoomFor 1 s →
    exec (.squirtByte b) s = .next { s with outbuf := s.outbuf ++ [b], rsp := .done }) ∧
  (∀ b s, Running s → NoRoomFor 1 s → exec (.squirtByte b) s = .next { s with rsp := .blocked }) ∧
  (∀ (len : BitVec 4) opnd s, len ≠ 0x0#4 → Running s →
    performWord (mkCmd (0x1#4 ++ len) opnd) s = .next { s with status := ⟨true, 0x1#4⟩ })

/-- R126. The next state is the state before it but for RSP and, when a byte is read, that byte gone from the front of
the input stream. -/
def Obligations.SuckByteFollowsItsRule : Prop :=
  (∀ opnd, decode (mkCmd 0x40#8 opnd) = .ok .suckByte) ∧
  (∀ b rest s, Running s → s.inbuf = b :: rest →
    exec .suckByte s = .next { s with inbuf := rest, rsp := .doneValue (BitVec.ofNat 64 b.toNat) }) ∧
  (∀ s, Running s → s.inbuf = [] → exec .suckByte s = .next { s with rsp := .blocked }) ∧
  (∀ (len : BitVec 4) opnd s, len ≠ 0x0#4 → Running s →
    performWord (mkCmd (0x4#4 ++ len) opnd) s = .next { s with status := ⟨true, 0x1#4⟩ })

/-- R140 and R141. The next state is the state before it but for RSP and the L bytes at the end of the output sink,
byte i being `(v >> (8*(L-1-i))) mod 256`; or but for RSP alone; or, for a length outside 1, 2, 4, 8, but for STATUS
alone, whatever the sink holds. -/
def Obligations.SquirtIntFollowsItsRule : Prop :=
  (∀ (len : BitVec 4) opnd, decode (mkCmd (0x2#4 ++ len) opnd) = .ok (.squirtInt opnd len.toNat)) ∧
  (∀ v len s, isLegalLength len → Running s → RoomFor len s →
    ∃ bs : List Byte, bs.length = len ∧
      (∀ i, i < len → bs[i]? = some (BitVec.ofNat 8 (v.toNat / 2 ^ (8 * (len - 1 - i))))) ∧
      exec (.squirtInt v len) s = .next { s with outbuf := s.outbuf ++ bs, rsp := .done }) ∧
  (∀ v len s, isLegalLength len → Running s → NoRoomFor len s →
    exec (.squirtInt v len) s = .next { s with rsp := .blocked }) ∧
  (∀ v len s, ¬ isLegalLength len → Running s →
    exec (.squirtInt v len) s = .next { s with status := ⟨true, 0x2#4⟩ })

/-- R148. The next state is the state before it but for RSP and the four bytes at the end of the output sink. -/
def Obligations.SquirtFixed32FollowsItsRule : Prop :=
  (∀ opnd, decode (mkCmd 0x30#8 opnd) = .ok (.squirtFixed32 opnd)) ∧
  (∀ v s, Running s → RoomFor 4 s →
    exec (.squirtFixed32 v) s = .next { s with
      outbuf := s.outbuf ++ [BitVec.ofNat 8 (v.toNat / 2 ^ 24), BitVec.ofNat 8 (v.toNat / 2 ^ 16),
        BitVec.ofNat 8 (v.toNat / 2 ^ 8), BitVec.ofNat 8 v.toNat],
      rsp := .done }) ∧
  (∀ v s, Running s → NoRoomFor 4 s →
    exec (.squirtFixed32 v) s = .next { s with rsp := .blocked }) ∧
  (∀ (len : BitVec 4) opnd s, len ≠ 0x0#4 → Running s →
    performWord (mkCmd (0x3#4 ++ len) opnd) s = .next { s with status := ⟨true, 0x1#4⟩ })

/-- R160 and R161. The next state is the state before it but for RSP and the first L bytes gone from the input stream; or
but for RSP alone; or, for a length outside 1, 2, 4, 8, but for STATUS alone, whatever the stream holds. -/
def Obligations.SuckIntFollowsItsRule : Prop :=
  (∀ (len : BitVec 4) opnd, decode (mkCmd (0x5#4 ++ len) opnd) = .ok (.suckInt len.toNat)) ∧
  (∀ len bs rest s, isLegalLength len → Running s → bs.length = len → s.inbuf = bs ++ rest →
    exec (.suckInt len) s =
      .next { s with inbuf := rest, rsp := .doneValue (BitVec.ofNat 64 (bigEndianSum len bs)) }) ∧
  (∀ len s, isLegalLength len → Running s → s.inbuf.length < len →
    exec (.suckInt len) s = .next { s with rsp := .blocked }) ∧
  (∀ len s, ¬ isLegalLength len → Running s →
    exec (.suckInt len) s = .next { s with status := ⟨true, 0x2#4⟩ })

/-- R168. The next state is the state before it but for RSP and the first four bytes gone from the input stream, or but
for RSP alone. -/
def Obligations.SuckFixed32FollowsItsRule : Prop :=
  (∀ opnd, decode (mkCmd 0x60#8 opnd) = .ok .suckFixed32) ∧
  (∀ b0 b1 b2 b3 rest s, Running s → s.inbuf = b0 :: b1 :: b2 :: b3 :: rest →
    exec .suckFixed32 s = .next { s with inbuf := rest, rsp := .doneValue (BitVec.ofNat 64
      (b0.toNat * 2 ^ 24 + b1.toNat * 2 ^ 16 + b2.toNat * 2 ^ 8 + b3.toNat)) }) ∧
  (∀ s, Running s → s.inbuf.length < 4 → exec .suckFixed32 s = .next { s with rsp := .blocked }) ∧
  (∀ (len : BitVec 4) opnd s, len ≠ 0x0#4 → Running s →
    performWord (mkCmd (0x6#4 ++ len) opnd) s = .next { s with status := ⟨true, 0x1#4⟩ })

/-! ## What the values mean -/

/-- R112: the selected length is the least of 1, 2, 4, 8 that is at least `minbytes v`. -/
def Obligations.SelectedLengthIsMinbytesRoundedUp : Prop :=
  ∀ v s, Running s → ∃ len, isLegalLength len ∧ minbytes v ≤ len ∧
    (∀ len', isLegalLength len' → minbytes v ≤ len' → len ≤ len') ∧
    exec (.selectLength v) s = .next { s with rsp := .doneValue (BitVec.ofNat 64 len) }

/-- R114: writing a value with its selected length and reading it back from an otherwise empty stream gives the value;
with a smaller legal length it does not. The writer's sink has room for the length written. -/
def Obligations.SelectedLengthLosesNoBits : Prop :=
  ∀ v s r, Running s → Running r → ∃ len, isLegalLength len ∧ bitlength v ≤ 8 * len ∧
    exec (.selectLength v) s = .next { s with rsp := .doneValue (BitVec.ofNat 64 len) } ∧
    (RoomFor len s → ∃ bs, exec (.squirtInt v len) s = .next { s with outbuf := s.outbuf ++ bs, rsp := .done } ∧
      exec (.suckInt len) { r with inbuf := bs } = .next { r with inbuf := [], rsp := .doneValue v }) ∧
    (∀ len', isLegalLength len' → len' < len → 8 * len' < bitlength v ∧
      (RoomFor len' s →
        ∃ bs v', exec (.squirtInt v len') s = .next { s with outbuf := s.outbuf ++ bs, rsp := .done } ∧
          exec (.suckInt len') { r with inbuf := bs } = .next { r with inbuf := [], rsp := .doneValue v' } ∧ v' ≠ v))

/-- R164: reading back what SQUIRT_INT wrote gives the value modulo 2^(8L), and the value itself when L bytes hold it,
whatever bytes follow it in the stream. -/
def Obligations.IntegerRoundTrip : Prop :=
  ∀ v len s r, isLegalLength len → Running s → RoomFor len s → Running r →
    ∃ bs, exec (.squirtInt v len) s = .next { s with outbuf := s.outbuf ++ bs, rsp := .done } ∧
      (∀ rest, exec (.suckInt len) { r with inbuf := bs ++ rest } =
        .next { r with inbuf := rest, rsp := .doneValue (BitVec.ofNat 64 (v.toNat % 2 ^ (8 * len))) }) ∧
      (bitlength v ≤ 8 * len → BitVec.ofNat 64 (v.toNat % 2 ^ (8 * len)) = v)

/-- R142 and R143: SQUIRT_INT completes with Done, without an error, writing the L-byte big-endian form of the value
modulo 2^(8L), exactly L bytes; nothing is dropped when 8L ≥ bitlength(v). -/
def Obligations.TruncationKeepsTheLowBytes : Prop :=
  (∀ v len s, isLegalLength len → Running s → RoomFor len s → ∃ bs : List Byte, bs.length = len ∧
    bigEndianSum len bs = v.toNat % 2 ^ (8 * len) ∧
    exec (.squirtInt v len) s = .next { s with outbuf := s.outbuf ++ bs, rsp := .done }) ∧
  (∀ (v : Value) len, bitlength v ≤ 8 * len → v.toNat % 2 ^ (8 * len) = v.toNat) ∧
  (∀ v w len s, v.toNat % 2 ^ (8 * len) = w.toNat % 2 ^ (8 * len) →
    exec (.squirtInt v len) s = exec (.squirtInt w len) s)

/-- R93, R149 and R169: on every state the special forms have exactly the effect of the general commands, and
SUCK_FIXED32's result has 32 bits. -/
def Obligations.SpecialFormsEqualGeneralForms : Prop :=
  (∀ v s, exec (.squirtFixed32 v) s = exec (.squirtInt v 4) s) ∧
  (∀ s, exec .suckFixed32 s = exec (.suckInt 4) s) ∧
  (∀ b s, exec (.squirtByte b) s = exec (.squirtInt (b.setWidth 64) 1) s) ∧
  (∀ s, exec .suckByte s = exec (.suckInt 1) s) ∧
  (∀ s t v, exec .suckFixed32 s = .next t → t.rsp = .doneValue v → v.toNat < 2 ^ 32)

/-- R163 and R128: a read's value is below 2^(8L) and is the natural-number sum of its bytes, without overflow. -/
def Obligations.ReadValuesStayInRange : Prop :=
  (∀ len bs rest s, isLegalLength len → Running s → bs.length = len → s.inbuf = bs ++ rest →
    ∃ v : Value, exec (.suckInt len) s = .next { s with inbuf := rest, rsp := .doneValue v } ∧
      v.toNat = bigEndianSum len bs ∧ v.toNat < 2 ^ (8 * len)) ∧
  (∀ s t v, exec .suckByte s = .next t → t.rsp = .doneValue v → v.extractLsb' 8 56 = 0#56)

/-- R59: two 2-byte reads of a field written as four bytes, and one 8-byte read across it, give whatever the bytes give
at those widths. -/
def Obligations.MixedWidthReadsFollowTheBytes : Prop :=
  (∀ (b0 b1 b2 b3 : Byte) rest s, Running s → s.inbuf = b0 :: b1 :: b2 :: b3 :: rest →
    ∃ t u, exec (.suckInt 2) s = .next t ∧
      t.rsp = .doneValue ((b0.setWidth 64 <<< 8) ||| b1.setWidth 64) ∧
      exec (.suckInt 2) t = .next u ∧
      u = { s with inbuf := rest, rsp := .doneValue ((b2.setWidth 64 <<< 8) ||| b3.setWidth 64) }) ∧
  (∀ (b0 b1 b2 b3 b4 b5 b6 b7 : Byte) rest s, Running s →
    s.inbuf = b0 :: b1 :: b2 :: b3 :: b4 :: b5 :: b6 :: b7 :: rest →
    exec (.suckInt 8) s = .next { s with inbuf := rest, rsp := .doneValue (BitVec.ofNat 64
      (b0.toNat * 2 ^ 56 + b1.toNat * 2 ^ 48 + b2.toNat * 2 ^ 40 + b3.toNat * 2 ^ 32 + b4.toNat * 2 ^ 24 +
        b5.toNat * 2 ^ 16 + b6.toNat * 2 ^ 8 + b7.toNat)) })

/-! ## All or nothing, Blocked, and the order of checks -/

/-- R127 and R165, for all three read commands: a read completes with a value exactly when all its bytes are there, and
takes exactly those; otherwise it is Blocked and takes none. -/
def Obligations.ReadsAreAllOrNothing : Prop :=
  ∀ i n s, readWidth i = some n → isLegalLength n → Running s →
    (s.inbuf.length < n → exec i s = .next { s with rsp := .blocked }) ∧
    (n ≤ s.inbuf.length →
      ∃ v, exec i s = .next { s with inbuf := s.inbuf.drop n, rsp := .doneValue v })

/-- For all three write commands: a write appends exactly its bytes and is Done exactly when the sink has room for all of
them; otherwise it is Blocked and appends none; an unbounded sink always has room. -/
def Obligations.WritesAreAllOrNothing : Prop :=
  ∀ i n s, writeWidth i = some n → isLegalLength n → Running s →
    (RoomFor n s → ∃ bs : List Byte, bs.length = n ∧
      exec i s = .next { s with outbuf := s.outbuf ++ bs, rsp := .done }) ∧
    (NoRoomFor n s → exec i s = .next { s with rsp := .blocked }) ∧
    (s.cfg.outCap = none → RoomFor n s)

/-- R192: a Blocked command changes nothing but RSP: it does not write STATUS, does not halt the block, and leaves the
streams unchanged. -/
def Obligations.BlockedChangesOnlyTheResponse : Prop :=
  ∀ cw s t, performWord cw s = .next t → Running t → t.rsp = .blocked → t = { s with rsp := .blocked }

/-- R27: a command that completes has one of three responses, with codes 01, 10 and 11: a write Done or Blocked, only Done
under the unbounded sink; a read DoneValue or Blocked; SELECT_LENGTH DoneValue. -/
def Obligations.ResponsesByCommandKind : Prop :=
  ∀ i s t, exec i s = .next t → Running t →
    (t.rsp = .done ∧ readRspCode t = 0b01#2 ∨ (∃ v, t.rsp = .doneValue v ∧ readRspCode t = 0b10#2) ∨
      t.rsp = .blocked ∧ readRspCode t = 0b11#2) ∧
    (writeWidth i ≠ none → t.rsp = .done ∨ t.rsp = .blocked) ∧
    (writeWidth i ≠ none → s.cfg.outCap = none → t.rsp = .done) ∧
    (readWidth i ≠ none → (∃ v, t.rsp = .doneValue v) ∨ t.rsp = .blocked) ∧
    (∀ w, i = .selectLength w → ∃ v, t.rsp = .doneValue v)

/-- R37: a Blocked command issued again is Blocked again and changes nothing; so is the whole step of the caller that
issues it again, but for the turn it takes. (The turns are the model's bookkeeping: notes/assumptions/4.md.) -/
def Obligations.RetryWithoutInputChangesNothing : Prop :=
  (∀ cw s t, performWord cw s = .next t → Running t → t.rsp = .blocked → performWord cw t = .next t) ∧
  (∀ s u cw v, CallerIssues s u cw → performWord cw u = .next v → Running v → v.rsp = .blocked →
    ∃ t, step s = .next t ∧ t.rsp = .blocked ∧ t.inbuf = s.inbuf ∧ t.outLog = s.outLog ∧
      ∀ t', CallersTurn t t' → step t = .next t')

/-- R166: a SUCK_INT that is Blocked for want of input completes when it is issued again after producer steps have brought
enough bytes, with the value of the first L bytes in stream order, the bytes present before it first. (The agenda, which
orders these moves and those after them, is the model's bookkeeping: notes/assumptions/4.md.) -/
def Obligations.BlockedReadResumesAfterInput : Prop :=
  ∀ cw len s (chunks : List (List Byte)) later, decode cw = .ok (.suckInt len) → isLegalLength len → Running s →
    s.phase ≠ .cancelled → s.program[s.pc]? = some cw → s.inbuf.length < len → (∀ c ∈ chunks, c ≠ []) →
    len ≤ (s.inbuf ++ chunks.flatten).length → s.agenda = .issue :: (chunks.map .produce ++ .issue :: later) →
    ∃ t, step s = .next t ∧ t.rsp = .blocked ∧ t.inbuf = s.inbuf ∧ t.pc = s.pc ∧
      ∃ u, Host.Core.run core (chunks.length + 1) t = .next u ∧
        u.inbuf = (s.inbuf ++ chunks.flatten).drop len ∧ u.pc = s.pc + 1 ∧ u.agenda = later ∧
        u.rsp = .doneValue (BitVec.ofNat 64 (bigEndianSum len (s.inbuf ++ chunks.flatten)))

/-- R187: the order of checks; the first that fails decides. -/
def Obligations.FirstFailingCheckDecides : Prop :=
  ∀ cw s,
    (s.status.fatal = true → performWord cw s = .fault .halted) ∧
    (Running s → ∀ e, decode cw = .error e → performWord cw s = .next { s with status := ⟨true, 0x1#4⟩ }) ∧
    (Running s → ∀ i, decode cw = .ok i →
      (∀ len, lengthOperand i = some len → ¬ isLegalLength len →
        performWord cw s = .next { s with status := ⟨true, 0x2#4⟩ }) ∧
      ((∀ len, lengthOperand i = some len → isLegalLength len) →
        (∀ n, (readWidth i = some n ∧ s.inbuf.length < n) ∨ (writeWidth i = some n ∧ NoRoomFor n s) →
          performWord cw s = .next { s with rsp := .blocked }) ∧
        ((∀ n, readWidth i = some n → n ≤ s.inbuf.length) → (∀ n, writeWidth i = some n → RoomFor n s) →
          ∃ t, performWord cw s = .next t ∧ t.status = s.status ∧
            (t.rsp = .done ∨ ∃ v, t.rsp = .doneValue v))))

/-! ## Fatal conditions, the halt and reset -/

/-- R184: BAD_LENGTH is raised by SQUIRT_INT and SUCK_INT on a length outside 1, 2, 4, 8, and by nothing else. -/
def Obligations.BadLengthIsRaisedExactlyForBadLengths : Prop :=
  ∀ i s, Running s →
    (exec i s = .next { s with status := ⟨true, 0x2#4⟩ } ↔
      ∃ len, lengthOperand i = some len ∧ ¬ isLegalLength len)

/-- R183: a fatal command leaves the state before it, except STATUS, which holds FATAL and one of the two causes; and no
command word has a step from there. -/
def Obligations.FatalChangesOnlyStatus : Prop :=
  ∀ cw s t, performWord cw s = .next t → t.status.fatal = true →
    (∃ c, (c = 0x1#4 ∨ c = 0x2#4) ∧ t = { s with status := ⟨true, c⟩ }) ∧
    ∀ cw', performWord cw' t = .fault .halted

/-- R32: while FATAL = 1 no command has a step, a step of the machine leaves the halt only by reset, reset gives every
command a step again, and a halted state is not a final state of a run. -/
def Obligations.HaltedUntilReset : Prop :=
  (∀ i s, s.status.fatal = true → exec i s = .fault .halted) ∧
  (∀ s t, s.status.fatal = true → step s = .next t → Running t → ∃ rest, s.agenda = .reset :: rest) ∧
  (∀ i s rest, s.agenda = .reset :: rest → ∃ t u, step s = .next t ∧ exec i t = .next u) ∧
  (∀ s, s.status.fatal = true → runStatus s ≠ .final)

/-- R41 and R211: after the reset move STATUS reads 0x00, RSP_CODE reads 00 and RSP_VALUE holds no value, and nothing else
has changed; a program starts at pc 0. (That reset leaves the caller's phase is the model's choice:
notes/assumptions/8.md.) -/
def Obligations.ResetClearsTheCodecOnly : Prop :=
  (∀ s rest, s.agenda = .reset :: rest → ∃ t, step s = .next t ∧
    readStatus t = 0x00#8 ∧ readRspCode t = 0b00#2 ∧ readRspValue t = .error .noResponseValue ∧
    t = { s with status := t.status, rsp := t.rsp, agenda := rest }) ∧
  (∀ s program rest, s.agenda = .load program :: rest → ∃ t, step s = .next t ∧
    t.pc = 0 ∧ t.program = program) ∧
  readStatus State.reset = 0x00#8 ∧ readRspCode State.reset = 0b00#2 ∧
  readRspValue State.reset = .error .noResponseValue ∧ State.reset.pc = 0

/-- A new program starts at pc 0 and leaves everything else: STATUS, RSP, both streams, the delivered bytes and `OUT_CAP`.
(That it leaves the codec and the streams is the model's choice, DESIGN CHOICE, notes/assumptions/3.md; so is the phase it
sets, notes/assumptions/8.md.) -/
def Obligations.LoadChangesOnlyTheCaller : Prop :=
  ∀ s program rest, s.agenda = .load program :: rest →
    step s = .next { s with program := program, pc := 0, phase := .ready, agenda := rest }

/-- R23: a command's result is a function of its word, the two streams (with the parameter `OUT_CAP`) and STATUS.FATAL:
states that agree on these give the same outcome, whatever RSP, CAUSE, the delivered bytes and the caller are. -/
def Obligations.ResultIgnoresTheResponseLatch : Prop :=
  ∀ cw s s', s.cfg = s'.cfg → s.inbuf = s'.inbuf → s.outbuf = s'.outbuf → s.status.fatal = s'.status.fatal →
    (∀ f, performWord cw s = .fault f → performWord cw s' = .fault f) ∧
    (∀ t, performWord cw s = .next t → ∃ t', performWord cw s' = .next t' ∧
      t'.inbuf = t.inbuf ∧ t'.outbuf = t.outbuf ∧ t'.status.fatal = t.status.fatal ∧
      (t.status.fatal = true → t'.status = t.status) ∧ (Running t → t'.rsp = t.rsp))

/-- R24: the layout of STATUS, its legal values on every state the machine's invariant admits, and that FATAL and CAUSE
are written by the fatal sequence, of the word the caller issues on its turn, and by reset, together, and by nothing
else. (The turns are the model's bookkeeping: notes/assumptions/4.md.) -/
def Obligations.StatusLayoutAndWriters : Prop :=
  (∀ s, (readStatus s).extractLsb' 0 1 = BitVec.ofBool s.status.fatal ∧
    (readStatus s).extractLsb' 1 3 = 0#3 ∧ (readStatus s).extractLsb' 4 4 = s.status.cause) ∧
  (∀ s, MachineInv s → readStatus s = 0x00#8 ∨ readStatus s = 0x11#8 ∨ readStatus s = 0x21#8) ∧
  (∀ s t, step s = .next t → t.status = s.status ∨
    (∃ u cw, CallerIssues s u cw ∧ Running s ∧ performWord cw u = .next t ∧
      (readStatus t = 0x11#8 ∨ readStatus t = 0x21#8)) ∨
    ((∃ rest, s.agenda = .reset :: rest) ∧ readStatus t = 0x00#8))

/-- R26: the encoding of RSP_CODE; a completing command writes RSP, whatever it held; a fatal one does not write it; and
RSP changes by the word the caller issues on its turn, when it completes, and by reset, and by nothing else. (The turns are
the model's bookkeeping: notes/assumptions/4.md.) -/
def Obligations.ResponseLatchEncodingAndWriters : Prop :=
  (∀ s, readRspCode s = match s.rsp with
    | .none => 0b00#2
    | .done => 0b01#2
    | .doneValue _ => 0b10#2
    | .blocked => 0b11#2) ∧
  (∀ cw s t r, performWord cw s = .next t → Running t →
    readRspCode t ≠ 0b00#2 ∧ performWord cw { s with rsp := r } = .next t) ∧
  (∀ cw s t, performWord cw s = .next t → t.status.fatal = true → t.rsp = s.rsp) ∧
  (∀ s t, step s = .next t → t.rsp = s.rsp ∨
    (∃ u cw v, CallerIssues s u cw ∧ performWord cw u = .next v ∧ Running v ∧ t.rsp = v.rsp) ∨
    ((∃ rest, s.agenda = .reset :: rest) ∧ readRspCode t = 0b00#2))

/-- R28: RSP_VALUE holds a value only when RSP_CODE is 10; reading it otherwise is a fault of the reader. -/
def Obligations.ResponseValueOnlyWithDoneValue : Prop :=
  ∀ s, (readRspCode s = 0b10#2 → ∃ v, s.rsp = .doneValue v ∧ readRspValue s = .ok v) ∧
    (readRspCode s ≠ 0b10#2 → readRspValue s = .error .noResponseValue)

/-! ## The agents around the codec -/

/-- R33: a producer step appends its bytes; and the input stream changes in no other way than by that and by the codec's
reads, issued on the caller's turn, which take bytes from its front. (The agenda, which names the step, and the phase, left
open here, are the model's bookkeeping: notes/assumptions/4.md and 8.md.) -/
def Obligations.InputGrowsAtTheBackAndIsReadFromTheFront : Prop :=
  (∀ s bs rest, s.agenda = .produce bs :: rest → bs ≠ [] →
    ∃ p, step s = .next { s with inbuf := s.inbuf ++ bs, phase := p, agenda := rest }) ∧
  (∀ s t, step s = .next t → t.inbuf = s.inbuf ∨
    (∃ bs rest, s.agenda = .produce bs :: rest ∧ t.inbuf = s.inbuf ++ bs) ∨
    (∃ u cw i n v, CallerIssues s u cw ∧ Running s ∧ decode cw = .ok i ∧ readWidth i = some n ∧ isLegalLength n ∧
      n ≤ s.inbuf.length ∧ t.inbuf = s.inbuf.drop n ∧ t.rsp = .doneValue v))

/-- R34: a consumer step moves the first k bytes of the sink to the end of the delivered bytes and leaves the output log
unchanged. (The agenda and the phase are the model's bookkeeping: notes/assumptions/4.md and 8.md.) -/
def Obligations.ConsumerStepKeepsTheOutputLog : Prop :=
  ∀ s k rest c, s.agenda = .drain k :: rest → s.cfg.outCap = some c → 1 ≤ k → k ≤ s.outbuf.length →
    ∃ t, step s = .next t ∧ t = { s with delivered := s.delivered ++ s.outbuf.take k, outbuf := s.outbuf.drop k,
                                         phase := t.phase, agenda := rest } ∧
      t.outLog = s.outLog

/-- No step takes back a byte of the output log: each leaves it, or is the caller's turn with a write command that is Done
and appends the command's bytes; bytes are delivered by a consumer step alone; and no step changes `OUT_CAP`. (That
`OUT_CAP` and the turns are held in the state is the model's choice: notes/assumptions/1.md and 4.md.) -/
def Obligations.OutputIsNeverTakenBack : Prop :=
  ∀ s t, step s = .next t → t.cfg = s.cfg ∧
    (t.outLog = s.outLog ∨
      ∃ u cw i bs, CallerIssues s u cw ∧ Running s ∧ decode cw = .ok i ∧ writeWidth i = some bs.length ∧
        isLegalLength bs.length ∧ t.outLog = s.outLog ++ bs ∧ t.rsp = .done) ∧
    (t.delivered = s.delivered ∨ ∃ k rest c, s.agenda = .drain k :: rest ∧ s.cfg.outCap = some c)

/-- R36: the caller advances pc on Done and DoneValue; on Blocked pc is unchanged and the next command is the identical
word. (The turns, and the phase, left open here, are the model's bookkeeping: notes/assumptions/4.md and 8.md.) -/
def Obligations.CallerFollowsTheResponse : Prop :=
  ∀ s u cw t, CallerIssues s u cw → performWord cw u = .next t → Running t →
    ((t.rsp = .done ∨ ∃ v, t.rsp = .doneValue v) →
      ∃ p, step s = .next { t with pc := s.pc + 1, phase := p }) ∧
    (t.rsp = .blocked → ∃ p, step s = .next { u with rsp := .blocked, phase := p } ∧
      nextCommand { u with rsp := .blocked, phase := p } = some cw)

/-- The caller's program and pc move in no other way than pc by one when the command it issues completes with Done or
DoneValue (R36), and by a new program. (The turns and the move that brings a program are the model's choice:
notes/assumptions/3.md and 4.md.) -/
def Obligations.CallerMovesOnlyByResponsesAndLoads : Prop :=
  ∀ s t, step s = .next t → (∃ program rest, s.agenda = .load program :: rest) ∨
    (t.program = s.program ∧
      (t.pc = s.pc ∨
        t.pc = s.pc + 1 ∧ (∃ u cw, CallerIssues s u cw) ∧ Running s ∧ (t.rsp = .done ∨ ∃ v, t.rsp = .doneValue v)))

/-- The model's own phase (DESIGN CHOICE, notes/assumptions/8.md): ready after Done and DoneValue, held after Blocked, and
from held to retrying by a producer or consumer step, which leaves every other phase. -/
def Obligations.PhaseRecordsTheRetryDiscipline : Prop :=
  (∀ s u cw v, CallerIssues s u cw → performWord cw u = .next v → Running v →
    ∃ t, step s = .next t ∧ (v.rsp = .blocked → t.phase = .held) ∧ (v.rsp ≠ .blocked → t.phase = .ready)) ∧
  (∀ s t m rest, s.agenda = m :: rest → ((∃ bs, m = .produce bs) ∨ (∃ k, m = .drain k)) → step s = .next t →
    (s.phase = .held → t.phase = .retrying) ∧ (s.phase ≠ .held → t.phase = s.phase))

/-- A step runs the decoded command: on the caller's turn, whether by an empty agenda or written on it, the machine's step
is the performing of the word the caller issues, followed by the caller's reaction to the response, and a fault or refusal
is the step's; and where the word decodes to i, performing it is exec of i. (The turns are the model's bookkeeping:
notes/assumptions/4.md.) -/
def Obligations.StepRunsTheDecodedCommand : Prop :=
  ∀ s u cw, CallerIssues s u cw →
    (∀ t, performWord cw u = .next t → step s = .next (callerAdvance t)) ∧
    (∀ f, performWord cw u = .fault f → step s = .fault f) ∧
    (∀ r, performWord cw u = .refused r → step s = .refused r) ∧
    (∀ i, decode cw = .ok i → performWord cw u = exec i u ∧
      (∀ t, exec i u = .next t → step s = .next (callerAdvance t)) ∧
      (∀ f, exec i u = .fault f → step s = .fault f) ∧
      (∀ r, exec i u = .refused r → step s = .refused r))

/-- The table word `withFetchWord` places is the caller's next command, and the codec, the streams, pc and the parameter
are as they were. (How a program comes to the caller is the model's choice: notes/assumptions/3.md.) -/
def Obligations.PlacedWordIsIssuedNext : Prop :=
  ∀ (s : State) nbits w cw t, cw = tableWord nbits w → t = s.withFetchWord nbits w →
    CallerIssues t t cw ∧ nextCommand t = some cw ∧ t.agenda = [] ∧
    (∀ k, k < s.pc → k < s.program.length → t.program[k]? = s.program[k]?) ∧
    s = { t with program := s.program, phase := s.phase, agenda := s.agenda }

/-- A caller cancels a Blocked command and then issues nothing; the run is then cancelled, not final. On a turn without a
command to issue, after a cancel or with no word at P[pc], nothing happens but that the turn is taken (R212). (The phase
that says cancelled, and the idle step, are the model's: DESIGN CHOICE, notes/assumptions/8.md and 5.md.) -/
def Obligations.CancelledCallerIssuesNothing : Prop :=
  (∀ s rest, s.agenda = .cancel :: rest → (s.phase = .held ∨ s.phase = .retrying) →
    step s = .next { s with phase := .cancelled, agenda := rest }) ∧
  (∀ s u, CallersTurn s u → (s.phase = .cancelled ∨ s.program[s.pc]? = none) → step s = .next u) ∧
  (∀ s, s.phase = .cancelled → Running s → runStatus s = .cancelled)

/-- Where a run stands, in the words of R38, on every state the machine's invariant admits; `phase` stands for what P[pc]
last completed with (DESIGN CHOICE, notes/assumptions/8.md). -/
def Obligations.RunStatusClassifiesRuns : Prop :=
  ∀ s, MachineInv s →
    (runStatus s = .final ↔ s.pc = s.program.length ∧ s.status.fatal = false) ∧
    (runStatus s = .faulted ↔ s.status.fatal = true) ∧
    (runStatus s = .held ↔ s.pc < s.program.length ∧ s.status.fatal = false ∧ s.phase = .held)

/-! ## Frames and invariants -/

/-- What every command leaves alone: the caller, the delivered bytes and the parameter; the input stream unless it is a
read; the output sink unless it is a write; STATUS unless its length operand is illegal. -/
def Obligations.CommandsTouchOnlyTheirOwnStream : Prop :=
  ∀ i s t, exec i s = .next t →
    t.cfg = s.cfg ∧ t.delivered = s.delivered ∧ t.program = s.program ∧ t.pc = s.pc ∧ t.phase = s.phase ∧
    t.agenda = s.agenda ∧
    (readWidth i = none → t.inbuf = s.inbuf) ∧
    (writeWidth i = none → t.outbuf = s.outbuf) ∧
    ((∀ len, lengthOperand i = some len → isLegalLength len) → t.status = s.status)

/-- The invariants hold right after reset, which is a launch state, and in every launch state of a run (R215). (The clauses
about `phase` in `IsLaunch`, `MachineInv` and `HeldBlocks` are the model's choice, DESIGN CHOICE, notes/assumptions/8.md;
the values of `State.reset` that the spec leaves open are those of notes/assumptions/1.md, 2.md, 3.md, 4.md and 8.md.) -/
def Obligations.InvariantsHoldAfterReset : Prop :=
  MachineInv State.reset ∧ HeldBlocks State.reset ∧ IsLaunch State.reset ∧
  ∀ s, IsLaunch s → MachineInv s ∧ HeldBlocks s

/-- Every step keeps the invariant, from every state that has it. (Its clause `waitsForCommand` is about `phase`, the
model's choice: DESIGN CHOICE, notes/assumptions/8.md.) -/
def Obligations.EveryStepKeepsTheInvariant : Prop :=
  ∀ s t, MachineInv s → step s = .next t → MachineInv t

/-- Every step keeps what it means to be held: the command a held caller waits for is Blocked on the state as it stands.
(`held` is a value of `phase`, and reset leaving it, are the model's choice: DESIGN CHOICE, notes/assumptions/8.md.) -/
def Obligations.HeldCommandStaysBlocked : Prop :=
  ∀ s t, HeldBlocks s → step s = .next t → HeldBlocks t
end

