-- ==== Sys2Proof/Laws/Decode.lean ====
section
/-! SUPPORT. The fields of a command word, and the decoder on a word built from its fields. -/

namespace Sys2Proof

/-! ## Taking a concatenation apart -/

theorem extract_high {m n : Nat} (a : BitVec m) (b : BitVec n) : (a ++ b).extractLsb' n m = a := by
  ext i hi
  simp [BitVec.getLsbD_append, hi]

theorem extract_low {m n : Nat} (a : BitVec m) (b : BitVec n) : (a ++ b).extractLsb' 0 n = b := by
  ext i hi
  simp [BitVec.getLsbD_append, hi]

theorem append_extract {m n : Nat} (x : BitVec (m + n)) :
    x.extractLsb' n m ++ x.extractLsb' 0 n = x := by
  ext i hi
  simp only [BitVec.getElem_append, BitVec.getElem_extractLsb']
  split
  · simp [BitVec.getLsbD_eq_getElem hi]
  · rw [show n + (i - n) = i by omega, BitVec.getLsbD_eq_getElem hi]

/-! ## The fields -/

@[simp] theorem cmdHdr_mkCmd (hdr : Header) (opnd : Value) : cmdHdr (mkCmd hdr opnd) = hdr :=
  extract_high hdr opnd

@[simp] theorem cmdOpnd_mkCmd (hdr : Header) (opnd : Value) : cmdOpnd (mkCmd hdr opnd) = opnd :=
  extract_low hdr opnd

@[simp] theorem hdrOp_append (op len : BitVec 4) : hdrOp (op ++ len) = op := extract_high op len

@[simp] theorem hdrLen_append (op len : BitVec 4) : hdrLen (op ++ len) = len := extract_low op len

/-- A command word is its header and its operand (R80). -/
theorem mkCmd_fields (cw : CmdWord) : mkCmd (cmdHdr cw) (cmdOpnd cw) = cw :=
  append_extract (m := 8) (n := 64) cw

/-- A header byte is its two fields (R81). -/
theorem hdr_fields (hdr : Header) : hdrOp hdr ++ hdrLen hdr = hdr := append_extract (m := 4) (n := 4) hdr

/-- Decoding looks at the header alone; the operand only fills the command's operands (R82, R85). -/
theorem decode_mkCmd (hdr : Header) (opnd : Value) :
    decode (mkCmd hdr opnd) = match decodeHeader hdr with
      | .ok opcode => .ok (withOperands opcode (hdrLen hdr) opnd)
      | .error e => .error e := by
  cases h : decodeHeader hdr <;> simp [decode, h]

end Sys2Proof
end

