-- ==== Sys2Proof/Laws/State.lean ====
section
/-! SUPPORT. What each update of the state does to each field: one lemma per field per update, true by rfl. -/

namespace Sys2Proof.Machine

/-! ## respond -/

@[simp] theorem respond_cfg (r : Resp) (s : State) : (respond r s).cfg = s.cfg := rfl
@[simp] theorem respond_inbuf (r : Resp) (s : State) : (respond r s).inbuf = s.inbuf := rfl
@[simp] theorem respond_outbuf (r : Resp) (s : State) : (respond r s).outbuf = s.outbuf := rfl
@[simp] theorem respond_delivered (r : Resp) (s : State) : (respond r s).delivered = s.delivered := rfl
@[simp] theorem respond_status (r : Resp) (s : State) : (respond r s).status = s.status := rfl
@[simp] theorem respond_rsp (r : Resp) (s : State) : (respond r s).rsp = r := rfl
@[simp] theorem respond_program (r : Resp) (s : State) : (respond r s).program = s.program := rfl
@[simp] theorem respond_pc (r : Resp) (s : State) : (respond r s).pc = s.pc := rfl
@[simp] theorem respond_phase (r : Resp) (s : State) : (respond r s).phase = s.phase := rfl
@[simp] theorem respond_agenda (r : Resp) (s : State) : (respond r s).agenda = s.agenda := rfl

/-! ## tubeWrite -/

@[simp] theorem tubeWrite_cfg (bs : List Byte) (s : State) : (tubeWrite bs s).cfg = s.cfg := rfl
@[simp] theorem tubeWrite_inbuf (bs : List Byte) (s : State) : (tubeWrite bs s).inbuf = s.inbuf := rfl
@[simp] theorem tubeWrite_outbuf (bs : List Byte) (s : State) : (tubeWrite bs s).outbuf = s.outbuf ++ bs := rfl
@[simp] theorem tubeWrite_delivered (bs : List Byte) (s : State) : (tubeWrite bs s).delivered = s.delivered := rfl
@[simp] theorem tubeWrite_status (bs : List Byte) (s : State) : (tubeWrite bs s).status = s.status := rfl
@[simp] theorem tubeWrite_rsp (bs : List Byte) (s : State) : (tubeWrite bs s).rsp = s.rsp := rfl
@[simp] theorem tubeWrite_program (bs : List Byte) (s : State) : (tubeWrite bs s).program = s.program := rfl
@[simp] theorem tubeWrite_pc (bs : List Byte) (s : State) : (tubeWrite bs s).pc = s.pc := rfl
@[simp] theorem tubeWrite_phase (bs : List Byte) (s : State) : (tubeWrite bs s).phase = s.phase := rfl
@[simp] theorem tubeWrite_agenda (bs : List Byte) (s : State) : (tubeWrite bs s).agenda = s.agenda := rfl

/-! ## raiseFatal -/

@[simp] theorem raiseFatal_cfg (c : Cause) (s : State) : (raiseFatal c s).cfg = s.cfg := rfl
@[simp] theorem raiseFatal_inbuf (c : Cause) (s : State) : (raiseFatal c s).inbuf = s.inbuf := rfl
@[simp] theorem raiseFatal_outbuf (c : Cause) (s : State) : (raiseFatal c s).outbuf = s.outbuf := rfl
@[simp] theorem raiseFatal_delivered (c : Cause) (s : State) : (raiseFatal c s).delivered = s.delivered := rfl
@[simp] theorem raiseFatal_status (c : Cause) (s : State) : (raiseFatal c s).status = Status.halted c := rfl
@[simp] theorem raiseFatal_rsp (c : Cause) (s : State) : (raiseFatal c s).rsp = s.rsp := rfl
@[simp] theorem raiseFatal_program (c : Cause) (s : State) : (raiseFatal c s).program = s.program := rfl
@[simp] theorem raiseFatal_pc (c : Cause) (s : State) : (raiseFatal c s).pc = s.pc := rfl
@[simp] theorem raiseFatal_phase (c : Cause) (s : State) : (raiseFatal c s).phase = s.phase := rfl
@[simp] theorem raiseFatal_agenda (c : Cause) (s : State) : (raiseFatal c s).agenda = s.agenda := rfl

/-! ## codecReset -/

@[simp] theorem codecReset_cfg (s : State) : (codecReset s).cfg = s.cfg := rfl
@[simp] theorem codecReset_inbuf (s : State) : (codecReset s).inbuf = s.inbuf := rfl
@[simp] theorem codecReset_outbuf (s : State) : (codecReset s).outbuf = s.outbuf := rfl
@[simp] theorem codecReset_delivered (s : State) : (codecReset s).delivered = s.delivered := rfl
@[simp] theorem codecReset_status (s : State) : (codecReset s).status = Status.running := rfl
@[simp] theorem codecReset_rsp (s : State) : (codecReset s).rsp = .none := rfl
@[simp] theorem codecReset_program (s : State) : (codecReset s).program = s.program := rfl
@[simp] theorem codecReset_pc (s : State) : (codecReset s).pc = s.pc := rfl
@[simp] theorem codecReset_phase (s : State) : (codecReset s).phase = s.phase := rfl
@[simp] theorem codecReset_agenda (s : State) : (codecReset s).agenda = s.agenda := rfl

/-! ## State.withFetchWord -/

@[simp] theorem withFetchWord_cfg (nbits w : Nat) (s : State) : (s.withFetchWord nbits w).cfg = s.cfg := rfl
@[simp] theorem withFetchWord_inbuf (nbits w : Nat) (s : State) : (s.withFetchWord nbits w).inbuf = s.inbuf := rfl
@[simp] theorem withFetchWord_outbuf (nbits w : Nat) (s : State) : (s.withFetchWord nbits w).outbuf = s.outbuf := rfl
@[simp] theorem withFetchWord_delivered (nbits w : Nat) (s : State) : (s.withFetchWord nbits w).delivered = s.delivered := rfl
@[simp] theorem withFetchWord_status (nbits w : Nat) (s : State) : (s.withFetchWord nbits w).status = s.status := rfl
@[simp] theorem withFetchWord_rsp (nbits w : Nat) (s : State) : (s.withFetchWord nbits w).rsp = s.rsp := rfl
@[simp] theorem withFetchWord_program (nbits w : Nat) (s : State) : (s.withFetchWord nbits w).program = placeWord (tableWord nbits w) s.pc s.program := rfl
@[simp] theorem withFetchWord_pc (nbits w : Nat) (s : State) : (s.withFetchWord nbits w).pc = s.pc := rfl
@[simp] theorem withFetchWord_phase (nbits w : Nat) (s : State) : (s.withFetchWord nbits w).phase = .ready := rfl
@[simp] theorem withFetchWord_agenda (nbits w : Nat) (s : State) : (s.withFetchWord nbits w).agenda = [] := rfl

/-! ## callerAdvance: the codec's and the stream's fields are left alone -/

@[simp] theorem callerAdvance_cfg (s : State) : (callerAdvance s).cfg = s.cfg := by
  unfold callerAdvance; split
  · rfl
  · split <;> rfl

@[simp] theorem callerAdvance_inbuf (s : State) : (callerAdvance s).inbuf = s.inbuf := by
  unfold callerAdvance; split
  · rfl
  · split <;> rfl

@[simp] theorem callerAdvance_outbuf (s : State) : (callerAdvance s).outbuf = s.outbuf := by
  unfold callerAdvance; split
  · rfl
  · split <;> rfl

@[simp] theorem callerAdvance_delivered (s : State) : (callerAdvance s).delivered = s.delivered := by
  unfold callerAdvance; split
  · rfl
  · split <;> rfl

@[simp] theorem callerAdvance_status (s : State) : (callerAdvance s).status = s.status := by
  unfold callerAdvance; split
  · rfl
  · split <;> rfl

@[simp] theorem callerAdvance_rsp (s : State) : (callerAdvance s).rsp = s.rsp := by
  unfold callerAdvance; split
  · rfl
  · split <;> rfl

@[simp] theorem callerAdvance_program (s : State) : (callerAdvance s).program = s.program := by
  unfold callerAdvance; split
  · rfl
  · split <;> rfl

@[simp] theorem callerAdvance_agenda (s : State) : (callerAdvance s).agenda = s.agenda := by
  unfold callerAdvance; split
  · rfl
  · split <;> rfl

/-! ## Small lemmas of the status and response words -/

@[simp] theorem status_halted_fatal (c : Cause) : (Status.halted c).fatal = true := rfl
@[simp] theorem status_halted_cause (c : Cause) : (Status.halted c).cause = c.code := rfl
@[simp] theorem status_running_fatal : Status.running.fatal = false := rfl
@[simp] theorem status_running_cause : Status.running.cause = 0x0#4 := rfl
@[simp] theorem outLog_eq (s : State) : s.outLog = s.delivered ++ s.outbuf := rfl

/-- A status register is its two stored fields. -/
theorem status_eq_of_fields (a b : Status) (hf : a.fatal = b.fatal) (hc : a.cause = b.cause) : a = b := by
  cases a; cases b; cases hf; cases hc; rfl

end Sys2Proof.Machine
end

