-- ==== Sys2Proof/Laws/Ops.lean ====
section
/-! SUPPORT. For each shared operation, once, everything it can do. -/

namespace Sys2Proof.Machine

/-- A performed command answers the state it leaves, and only while the codec runs (R32). -/
theorem whenRunning_eq_next {s p t : State} :
    whenRunning s p = .next t ↔ s.status.fatal = false ∧ t = p := by
  unfold whenRunning
  cases h : s.status.fatal <;> simp [eq_comm]

theorem whenRunning_running {s p : State} (h : s.status.fatal = false) : whenRunning s p = .next p := by
  simp [whenRunning, h]

theorem whenRunning_halted {s p : State} (h : s.status.fatal = true) : whenRunning s p = .fault .halted := by
  simp [whenRunning, h]

/-- `hasRoom` is the sink's capacity check (R55, R56). -/
theorem hasRoom_iff (n : Nat) (s : State) : hasRoom n s = true ↔ RoomFor n s := by
  unfold hasRoom RoomFor
  cases h : s.cfg.outCap <;> simp

theorem not_hasRoom_iff (n : Nat) (s : State) : hasRoom n s = false ↔ NoRoomFor n s := by
  unfold hasRoom NoRoomFor
  cases h : s.cfg.outCap <;> simp

/-- The capacity check reads the parameter and the sink only. -/
theorem hasRoom_congr {s s' : State} (n : Nat) (hc : s.cfg = s'.cfg) (ho : s.outbuf = s'.outbuf) :
    hasRoom n s = hasRoom n s' := by
  unfold hasRoom; rw [hc, ho]

/-- A read of the stream takes all its bytes or none (R53, R63). -/
theorem scoopRead_cases (n : Nat) (s : State) :
    (s.inbuf.length < n ∧ scoopRead n s = none) ∨
    (n ≤ s.inbuf.length ∧
      scoopRead n s = some (s.inbuf.take n, { s with inbuf := s.inbuf.drop n })) := by
  unfold scoopRead
  split
  · exact .inl ⟨‹_›, rfl⟩
  · exact .inr ⟨by omega, rfl⟩

/-- A write is Blocked with nothing written, or Done with everything (R56). -/
theorem squirt_cases (bs : List Byte) (s : State) :
    (NoRoomFor bs.length s ∧ squirt bs s = { s with rsp := .blocked }) ∨
    (RoomFor bs.length s ∧ squirt bs s = { s with outbuf := s.outbuf ++ bs, rsp := .done }) := by
  unfold squirt
  cases h : hasRoom bs.length s
  · exact .inl ⟨(not_hasRoom_iff _ _).1 h, rfl⟩
  · exact .inr ⟨(hasRoom_iff _ _).1 h, rfl⟩

/-- A read is Blocked with nothing taken, or DoneValue with exactly n bytes taken (R63). -/
theorem suck_cases (n : Nat) (value : List Byte → Value) (s : State) :
    (s.inbuf.length < n ∧ suck n value s = { s with rsp := .blocked }) ∨
    (n ≤ s.inbuf.length ∧ suck n value s =
      { s with inbuf := s.inbuf.drop n, rsp := .doneValue (value (s.inbuf.take n)) }) := by
  unfold suck
  rcases scoopRead_cases n s with ⟨h, e⟩ | ⟨h, e⟩
  · exact .inl ⟨h, by rw [e]; rfl⟩
  · exact .inr ⟨h, by rw [e]; rfl⟩

/-- The lengths a command may name, and no others (R184). -/
theorem lengthOf_cases (len : Nat) :
    (∃ l, lengthOf? len = some l ∧ l.bytes = len ∧ isLegalLength len) ∨
    (lengthOf? len = none ∧ ¬ isLegalLength len) := by
  unfold lengthOf? isLegalLength
  split
  · exact .inl ⟨.one, rfl, rfl, by simp⟩
  · exact .inl ⟨.two, rfl, rfl, by simp⟩
  · exact .inl ⟨.four, rfl, rfl, by simp⟩
  · exact .inl ⟨.eight, rfl, rfl, by simp⟩
  · rename_i h1 h2 h4 h8
    exact .inr ⟨rfl, fun h => by rcases h with h | h | h | h <;> simp_all⟩

@[simp] theorem fieldBytes_length (l : Length) (v : Value) : (fieldBytes l v).length = l.bytes := by
  simp [fieldBytes]

@[simp] theorem fixed32Bytes_length (v : Value) : (fixed32Bytes v).length = 4 := rfl

/-- What the caller does with the state a command leaves (R36, R189). -/
theorem callerAdvance_cases (s : State) :
    (s.status.fatal = true ∧ callerAdvance s = s) ∨
    (s.status.fatal = false ∧ (s.rsp = .done ∨ ∃ v, s.rsp = .doneValue v) ∧
      callerAdvance s = { s with pc := s.pc + 1, phase := .ready }) ∨
    (s.status.fatal = false ∧ s.rsp = .blocked ∧ callerAdvance s = { s with phase := .held }) ∨
    (s.status.fatal = false ∧ s.rsp = .none ∧ callerAdvance s = s) := by
  unfold callerAdvance
  cases hf : s.status.fatal
  · cases hr : s.rsp <;> simp
  · simp

/-- What the caller's turn can do (R31, R36). -/
theorem issue_eq_next {s t : State} :
    issue s = .next t ↔
      (nextCommand s = none ∧ t = s) ∨
      ∃ cw u, nextCommand s = some cw ∧ performWord cw s = .next u ∧ t = callerAdvance u := by
  unfold issue
  cases nextCommand s with
  | none => simp [eq_comm]
  | some cw => cases h : performWord cw s <;> simp [eq_comm, h]

end Sys2Proof.Machine
end

