-- ==== Sys2Proof/Laws/Exec.lean ====
section
/-! SUPPORT. Once, everything a command can do, and everything a step of the machine can do. -/

namespace Sys2Proof.Machine

/-- The five ways a command ends (R187): a fatal length, Blocked, a write, a read, or a length. -/
inductive CommandEffect (i : Instr) (s : State) : State → Prop where
  | badLength (len : Nat) (hl : lengthOperand i = some len) (hbad : ¬ isLegalLength len) :
      CommandEffect i s (raiseFatal .badLength s)
  | blocked (n : Nat) (hok : ∀ len, lengthOperand i = some len → isLegalLength len)
      (hw : (readWidth i = some n ∧ s.inbuf.length < n) ∨ (writeWidth i = some n ∧ NoRoomFor n s)) :
      CommandEffect i s { s with rsp := .blocked }
  | wrote (bs : List Byte) (hok : ∀ len, lengthOperand i = some len → isLegalLength len)
      (hw : writeWidth i = some bs.length) (hr : RoomFor bs.length s) :
      CommandEffect i s { s with outbuf := s.outbuf ++ bs, rsp := .done }
  | read (n : Nat) (v : Value) (hok : ∀ len, lengthOperand i = some len → isLegalLength len)
      (hw : readWidth i = some n) (hn : n ≤ s.inbuf.length) :
      CommandEffect i s { s with inbuf := s.inbuf.drop n, rsp := .doneValue v }
  | selected (v : Value) (hr : readWidth i = none) (hw : writeWidth i = none)
      (hok : ∀ len, lengthOperand i = some len → isLegalLength len) :
      CommandEffect i s { s with rsp := .doneValue v }

/-- A write command's effect. -/
theorem squirt_effect {i : Instr} {s : State} (bs : List Byte) (hw : writeWidth i = some bs.length)
    (hok : ∀ len, lengthOperand i = some len → isLegalLength len) : CommandEffect i s (squirt bs s) := by
  rcases squirt_cases bs s with ⟨h, e⟩ | ⟨h, e⟩ <;> rw [e]
  · exact .blocked _ hok (.inr ⟨hw, h⟩)
  · exact .wrote _ hok hw h

/-- A read command's effect. -/
theorem suck_effect {i : Instr} {s : State} (n : Nat) (value : List Byte → Value) (hw : readWidth i = some n)
    (hok : ∀ len, lengthOperand i = some len → isLegalLength len) : CommandEffect i s (suck n value s) := by
  rcases suck_cases n value s with ⟨h, e⟩ | ⟨h, e⟩ <;> rw [e]
  · exact .blocked n hok (.inl ⟨hw, h⟩)
  · exact .read n _ hok hw h

/-- A command answers a next state exactly while the codec runs, and then it ends in one of its five ways. -/
theorem exec_effect {i : Instr} {s t : State} (h : exec i s = .next t) :
    s.status.fatal = false ∧ CommandEffect i s t := by
  cases i with
  | squirtByte b =>
    obtain ⟨hr, rfl⟩ := whenRunning_eq_next.1 h
    exact ⟨hr, squirt_effect [b] rfl (by simp [lengthOperand])⟩
  | squirtFixed32 v =>
    obtain ⟨hr, rfl⟩ := whenRunning_eq_next.1 h
    exact ⟨hr, squirt_effect (fixed32Bytes v) rfl (by simp [lengthOperand])⟩
  | suckByte =>
    obtain ⟨hr, rfl⟩ := whenRunning_eq_next.1 h
    exact ⟨hr, suck_effect 1 byteValue rfl (by simp [lengthOperand])⟩
  | suckFixed32 =>
    obtain ⟨hr, rfl⟩ := whenRunning_eq_next.1 h
    exact ⟨hr, suck_effect 4 fixed32Value rfl (by simp [lengthOperand])⟩
  | selectLength v =>
    obtain ⟨hr, rfl⟩ := whenRunning_eq_next.1 h
    exact ⟨hr, .selected _ rfl rfl (by simp [lengthOperand])⟩
  | squirtInt v len =>
    obtain ⟨hr, rfl⟩ := whenRunning_eq_next.1 h
    refine ⟨hr, ?_⟩
    rcases lengthOf_cases len with ⟨l, e, rfl, hl⟩ | ⟨e, hl⟩ <;> rw [e]
    · exact squirt_effect (fieldBytes l v) (by simp [writeWidth]) (by simpa [lengthOperand] using hl)
    · exact .badLength len rfl hl
  | suckInt len =>
    obtain ⟨hr, rfl⟩ := whenRunning_eq_next.1 h
    refine ⟨hr, ?_⟩
    rcases lengthOf_cases len with ⟨l, e, rfl, hl⟩ | ⟨e, hl⟩ <;> rw [e]
    · exact suck_effect l.bytes fieldValue (by simp [readWidth]) (by simpa [lengthOperand] using hl)
    · exact .badLength len rfl hl

/-- A running command always answers a next state. -/
theorem exec_running {i : Instr} {s : State} (h : s.status.fatal = false) : ∃ t, exec i s = .next t := by
  cases i <;> exact ⟨_, whenRunning_running h⟩

/-- A halted codec has no step for any command (R32). -/
theorem exec_halted {i : Instr} {s : State} (h : s.status.fatal = true) : exec i s = .fault .halted := by
  cases i <;> exact whenRunning_halted h

/-- Performing a word: an illegal header raises its cause, a legal one performs its command (R31, R182). -/
theorem performWord_eq_next {cw : CmdWord} {s t : State} (h : performWord cw s = .next t) :
    (∃ e, decode cw = .error e ∧ s.status.fatal = false ∧ t = raiseFatal .illegalCommand s) ∨
    ∃ i, decode cw = .ok i ∧ exec i s = .next t := by
  unfold performWord at h
  cases hd : decode cw with
  | error e =>
    rw [hd] at h
    exact .inl ⟨e, rfl, whenRunning_eq_next.1 h⟩
  | ok i =>
    rw [hd] at h
    exact .inr ⟨i, rfl, h⟩

/-- What the caller has to issue (R35, R36, R38). -/
theorem nextCommand_eq_some {s : State} {cw : CmdWord} :
    nextCommand s = some cw ↔ s.phase ≠ .cancelled ∧ s.program[s.pc]? = some cw := by
  unfold nextCommand
  split <;> simp_all

/-- The caller has nothing to issue (R38, R212). -/
theorem nextCommand_eq_none {s : State} :
    nextCommand s = none ↔ s.phase = .cancelled ∨ s.program[s.pc]? = none := by
  unfold nextCommand
  split <;> simp_all

/-- A step on the caller's turn is the caller's issuing, wherever the turn is written. -/
theorem step_callersTurn {s u : State} (h : CallersTurn s u) : step s = issue u := by
  rcases h with ⟨ha, rfl⟩ | ⟨rest, ha, rfl⟩ <;> simp only [step, ha, takeMove]

/-- Taking the turn changes the agenda only. -/
theorem callersTurn_frame {s u : State} (h : CallersTurn s u) : u = { s with agenda := u.agenda } := by
  rcases h with ⟨_, rfl⟩ | ⟨_, _, rfl⟩ <;> rfl

/-- The word issued on a turn is the next command of the state with the turn taken. -/
theorem callerIssues_iff {s u : State} {cw : CmdWord} :
    CallerIssues s u cw ↔ CallersTurn s u ∧ nextCommand u = some cw := by
  unfold CallerIssues
  refine and_congr_right fun h => ?_
  rw [callersTurn_frame h, nextCommand_eq_some]

/-- Everything one step of the machine can do (R20, R66): the caller's turn, or the move at the head of the agenda. -/
theorem step_cases {s t : State} (h : step s = .next t) :
    (∃ u, CallersTurn s u ∧ issue u = .next t) ∨
    (∃ bs rest, s.agenda = .produce bs :: rest ∧ bs ≠ [] ∧
      t = { s with inbuf := s.inbuf ++ bs, phase := s.phase.afterStream, agenda := rest }) ∨
    (∃ k rest c, s.agenda = .drain k :: rest ∧ s.cfg.outCap = some c ∧ 1 ≤ k ∧ k ≤ s.outbuf.length ∧
      t = { s with delivered := s.delivered ++ s.outbuf.take k, outbuf := s.outbuf.drop k,
                   phase := s.phase.afterStream, agenda := rest }) ∨
    (∃ rest, s.agenda = .reset :: rest ∧ t = codecReset { s with agenda := rest }) ∨
    (∃ rest, s.agenda = .cancel :: rest ∧ (s.phase = .held ∨ s.phase = .retrying) ∧
      t = { s with phase := .cancelled, agenda := rest }) ∨
    (∃ program rest, s.agenda = .load program :: rest ∧
      t = { s with program := program, pc := 0, phase := .ready, agenda := rest }) := by
  unfold step at h
  cases ha : s.agenda with
  | nil => rw [ha] at h; exact .inl ⟨s, .inl ⟨ha, rfl⟩, h⟩
  | cons m rest =>
    rw [ha] at h
    cases m with
    | issue => exact .inl ⟨_, .inr ⟨rest, ha, rfl⟩, h⟩
    | produce bs =>
      simp only [takeMove, produce] at h
      split at h
      · cases h
      · exact .inr (.inl ⟨bs, rest, rfl, ‹_›, by cases h; rfl⟩)
    | drain k =>
      simp only [takeMove, drain] at h
      split at h
      · cases h
      · split at h
        · cases h
        · rename_i hc hk
          obtain ⟨c, hc⟩ := Option.ne_none_iff_exists'.1 hc
          exact .inr (.inr (.inl ⟨k, rest, c, rfl, hc, by omega, by omega, by cases h; rfl⟩))
    | reset => exact .inr (.inr (.inr (.inl ⟨rest, rfl, by cases h; rfl⟩)))
    | cancel =>
      simp only [takeMove, cancel] at h
      split at h
      · exact .inr (.inr (.inr (.inr (.inl ⟨rest, rfl, .inl ‹_›, by cases h; rfl⟩))))
      · exact .inr (.inr (.inr (.inr (.inl ⟨rest, rfl, .inr ‹_›, by cases h; rfl⟩))))
      · cases h
      · cases h
    | load program =>
      exact .inr (.inr (.inr (.inr (.inr ⟨program, rest, rfl, by cases h; rfl⟩))))

end Sys2Proof.Machine
end

