-- ==== Sys2Proof/Laws/PerInstr.lean ====
section
/-! SUPPORT. A law about every command as syntax: the header its encoding begins with matches the command's row of
spec/opcode_table.json. -/

namespace Sys2Proof.Laws

/-- The "match" byte of a command's row of the opcode table. -/
def tableMatch : Opcode → Header
  | .squirtByte => 0x10#8
  | .squirtInt => 0x20#8
  | .squirtFixed32 => 0x30#8
  | .suckByte => 0x40#8
  | .suckInt => 0x50#8
  | .suckFixed32 => 0x60#8
  | .selectLength => 0x70#8

/-- The "mask" byte of a command's row of the opcode table. -/
def tableMask : Opcode → Header
  | .squirtInt => 0xF0#8
  | .suckInt => 0xF0#8
  | .squirtByte => 0xFF#8
  | .squirtFixed32 => 0xFF#8
  | .suckByte => 0xFF#8
  | .suckFixed32 => 0xFF#8
  | .selectLength => 0xFF#8

/-- A header byte matches a row of the opcode table. -/
def matchesRow (hdr : Header) (opcode : Opcode) : Bool := hdr &&& tableMask opcode == tableMatch opcode

/-- No header byte matches two rows. -/
theorem rows_do_not_overlap :
    ∀ hdr : Header, ∀ a b : Fin 7,
      let op (n : Fin 7) : Opcode := [Opcode.squirtByte, .squirtInt, .squirtFixed32, .suckByte, .suckInt,
        .suckFixed32, .selectLength][n]
      matchesRow hdr (op a) = true → matchesRow hdr (op b) = true → a = b := by decide

namespace EncodeMatchesTable

/-- A well-formed command's encoding matches its own row of the opcode table. -/
def Statement (i : Instr) : Prop := i.wf = true → matchesRow (cmdHdr (encode i)) i.opcode = true

theorem squirtByte (b : Byte) : Statement (.squirtByte b) := fun _ => by
  simp only [encode, cmdHdr_mkCmd, Instr.opcode, Instr.lenField]; decide

theorem squirtInt (v : Value) (len : Nat) : Statement (.squirtInt v len) := fun _ => by
  simp only [encode, cmdHdr_mkCmd, Instr.opcode, Instr.lenField]
  generalize BitVec.ofNat 4 len = l
  revert l; decide

theorem squirtFixed32 (v : Value) : Statement (.squirtFixed32 v) := fun _ => by
  simp only [encode, cmdHdr_mkCmd, Instr.opcode, Instr.lenField]; decide

theorem suckByte : Statement .suckByte := fun _ => by decide

theorem suckInt (len : Nat) : Statement (.suckInt len) := fun _ => by
  simp only [encode, cmdHdr_mkCmd, Instr.opcode, Instr.lenField]
  generalize BitVec.ofNat 4 len = l
  revert l; decide

theorem suckFixed32 : Statement .suckFixed32 := fun _ => by decide

theorem selectLength (v : Value) : Statement (.selectLength v) := fun _ => by
  simp only [encode, cmdHdr_mkCmd, Instr.opcode, Instr.lenField]; decide

end EncodeMatchesTable

end Sys2Proof.Laws
end

