-- ==== Sys2Proof/Tests/Slice0.lean ====
section
/-! SUPPORT. The author's tests: expected results are the vectors of spec/95_test_vectors.md (named in each comment)
or hand calculation from the rule named; and, for each statement with hypotheses, states that meet them. -/

namespace Sys2Proof.Tests

open Sys2Proof.Machine

/-! ## Helpers -/

/-- The outcome is a next state with the property. -/
def answers (r : Result) (p : State → Bool) : Bool :=
  match r with
  | .next t => p t
  | .fault _ => false
  | .refused _ => false

/-- The outcome is this fault. -/
def faults (r : Result) (f : Fault) : Bool :=
  match r with
  | .next _ => false
  | .fault g => decide (g = f)
  | .refused _ => false

/-- The outcome is this refusal. -/
def refuses (r : Result) (f : Refusal) : Bool :=
  match r with
  | .next _ => false
  | .fault _ => false
  | .refused g => decide (g = f)

/-- The decoder rejects the word for this reason. -/
def rejects (cw : CmdWord) (e : IllegalHeader) : Bool :=
  match decode cw with
  | .ok _ => false
  | .error e' => decide (e' = e)

def withInput (bs : List Byte) : State := { State.reset with inbuf := bs }

/-- A sink of capacity 4 holding some bytes (spec 95, 2.7). -/
def sink4 (bs : List Byte) : State := { State.reset with cfg := ⟨some 4⟩, outbuf := bs }

def halted : State := { State.reset with status := ⟨true, 0x2#4⟩, inbuf := [0x11#8, 0x22#8], outbuf := [0x7E#8] }

/-- A caller about to issue one word. -/
def issuing (cw : CmdWord) (s : State) : State := { s with program := [cw] }

/-- A `suck_byte` on an empty stream, already answered with Blocked (spec 95, P6). -/
def heldState : State :=
  { State.reset with program := [0x400000000000000000#72], phase := .held, rsp := .blocked }

/-- The caller issues, with an empty agenda; with its turn at the head of it. -/
theorem callerIssues_idle {s : State} {cw : CmdWord} (ha : s.agenda = []) (hp : s.phase ≠ .cancelled)
    (hc : s.program[s.pc]? = some cw) : CallerIssues s s cw := ⟨.inl ⟨ha, rfl⟩, hp, hc⟩

theorem callerIssues_turn {s : State} {cw : CmdWord} {rest : List Move} (ha : s.agenda = .issue :: rest)
    (hp : s.phase ≠ .cancelled) (hc : s.program[s.pc]? = some cw) : CallerIssues s { s with agenda := rest } cw :=
  ⟨.inr ⟨rest, ha, rfl⟩, hp, hc⟩

/-! ## Well-formedness smoke: the ill-formed terms are refused (R81, R91) -/

theorem test_wf_refuses_squirt_int_16 : Instr.wf (.squirtInt 0#64 16) = false := by decide
theorem test_wf_refuses_suck_int_16 : Instr.wf (.suckInt 16) = false := by decide
theorem test_wf_admits_illegal_lengths : (Instr.squirtInt 0#64 15).wf && (Instr.suckInt 0).wf = true := by decide

/-! ## Decoding: words written out bit by bit from spec 30 R84 and spec 95 -/

theorem test_decode_squirt_byte : decode (0b00010000#8 ++ 0x00000000000000AB#64) = .ok (.squirtByte 0xAB#8) := by
  decide
theorem test_decode_squirt_int :
    decode (0b00101000#8 ++ 0x0102030405060708#64) = .ok (.squirtInt 0x0102030405060708#64 8) := by decide
theorem test_decode_squirt_fixed32 :
    decode (0b00110000#8 ++ 0xDEADBEEFCAFEBABE#64) = .ok (.squirtFixed32 0xDEADBEEFCAFEBABE#64) := by decide
theorem test_decode_suck_byte : decode (0b01000000#8 ++ 0xFFFFFFFFFFFFFFFF#64) = .ok .suckByte := by decide
theorem test_decode_suck_int : decode (0b01010010#8 ++ 0#64) = .ok (.suckInt 2) := by decide
theorem test_decode_suck_fixed32 : decode (0b01100000#8 ++ 0#64) = .ok .suckFixed32 := by decide
theorem test_decode_select_length : decode (0b01110000#8 ++ 0x12345#64) = .ok (.selectLength 0x12345#64) := by decide

/-- Spec 95, 2.1: illegal headers, rejected by name. -/
theorem test_decode_rejects_by_name :
    rejects (mkCmd 0x0F#8 0#64) (.opNotAssigned 0x0#4) && rejects (mkCmd 0x80#8 0#64) (.opNotAssigned 0x8#4) &&
      rejects (mkCmd 0xFF#8 0#64) (.opNotAssigned 0xF#4) &&
      rejects (mkCmd 0x11#8 0#64) (.lenNotZero .squirtByte 0x1#4) &&
      rejects (mkCmd 0x3F#8 0#64) (.lenNotZero .squirtFixed32 0xF#4) &&
      rejects (mkCmd 0x41#8 0#64) (.lenNotZero .suckByte 0x1#4) &&
      rejects (mkCmd 0x61#8 0#64) (.lenNotZero .suckFixed32 0x1#4) &&
      rejects (mkCmd 0x74#8 4#64) (.lenNotZero .selectLength 0x4#4) = true := by decide

/-- R88: of the 256 header values 37 decode. -/
theorem test_header_count :
    ((List.range 256).filter fun n => (decodeHeader (BitVec.ofNat 8 n)).isOk).length = 37 := by decide

/-- Spec 95, program P1: the encodings the listing shows. -/
theorem test_encode_listing :
    encode (.selectLength 0x12345#64) = 0x700000000000012345#72 ∧
    encode (.squirtByte 0x04#8) = 0x100000000000000004#72 ∧
    encode (.squirtInt 0x12345#64 4) = 0x240000000000012345#72 := by decide

/-! ## The opcode table's rows, as the first command after reset -/

theorem test_table_rows_decode :
    decodeTableWord 8 0x10 = some (.squirtByte 0#8) ∧ decodeTableWord 8 0x20 = some (.squirtInt 0#64 0) ∧
    decodeTableWord 8 0x30 = some (.squirtFixed32 0#64) ∧ decodeTableWord 8 0x40 = some .suckByte ∧
    decodeTableWord 8 0x50 = some (.suckInt 0) ∧ decodeTableWord 8 0x60 = some .suckFixed32 ∧
    decodeTableWord 8 0x70 = some (.selectLength 0#64) := by decide

/-- R60: after the header byte the operand's most significant byte; bits above the row's are 0. -/
theorem test_table_word_bytes :
    tableWord 72 0x080706050403020128 = 0x280102030405060708#72 ∧ tableWord 8 0x0140 = 0x400000000000000000#72 := by
  decide

theorem test_placed_word_runs_first :
    answers (step (State.reset.withFetchWord 8 0x70)) (fun t => t.rsp == .doneValue 1#64 && t.pc == 1) &&
      answers (step (State.reset.withFetchWord 8 0x40)) (fun t => t.rsp == .blocked && t.pc == 0) &&
      answers (step (State.reset.withFetchWord 8 0x50)) (fun t => readStatus t == 0x21#8 && t.pc == 0) = true := by
  decide

/-! ## SELECT_LENGTH (spec 95, W3 and 2.2) -/

theorem test_select_length_boundaries :
    [0#64, 255#64, 256#64, 65535#64, 65536#64, 0xFFFFFFFF#64, 0x100000000#64, 0xFFFFFFFFFFFFFFFF#64].map
        (fun v => (canonicalLength v).bytes) = [1, 1, 2, 2, 4, 4, 8, 8] := by decide

theorem test_select_length_rounds_up :
    answers (exec (.selectLength 0xFFFFFF#64) State.reset) (fun t => t == { State.reset with rsp := .doneValue 4#64 }) &&
      answers (exec (.selectLength 0x8000000000000000#64) State.reset) (fun t => t.rsp == .doneValue 8#64) = true := by
  decide

/-! ## ByteCodec (spec 95, 2.3 and 2.7) -/

theorem test_squirt_byte :
    answers (performWord 0x1000000000000001AB#72 State.reset)
      (fun t => t == { State.reset with outbuf := [0xAB#8], rsp := .done }) = true := by decide

theorem test_squirt_byte_full_sink :
    answers (exec (.squirtByte 0x09#8) (sink4 [1#8, 2#8, 3#8, 9#8]))
      (fun t => t == { sink4 [1#8, 2#8, 3#8, 9#8] with rsp := .blocked }) = true := by decide

theorem test_suck_byte :
    answers (exec .suckByte (withInput [0xAB#8, 0x01#8])) (fun t => t.rsp == .doneValue 0xAB#64 && t.inbuf == [0x01#8]) &&
      answers (exec .suckByte (withInput [0xFF#8])) (fun t => t.rsp == .doneValue 0xFF#64) = true := by decide

theorem test_suck_byte_empty :
    answers (exec .suckByte State.reset) (fun t => t == { State.reset with rsp := .blocked }) = true := by decide

/-! ## IntegerEncoder (spec 95, 2.4 and 2.7) -/

theorem test_squirt_int :
    answers (exec (.squirtInt 0x0102030405060708#64 8) State.reset)
        (fun t => t.outbuf == [1#8, 2#8, 3#8, 4#8, 5#8, 6#8, 7#8, 8#8] && t.rsp == .done) &&
      answers (exec (.squirtInt 0x12345#64 2) State.reset) (fun t => t.outbuf == [0x23#8, 0x45#8]) = true := by decide

theorem test_squirt_int_bad_length_before_capacity :
    answers (exec (.squirtInt 0#64 3) (sink4 [1#8, 2#8, 3#8, 9#8]))
        (fun t => readStatus t == 0x21#8 && t.outbuf == [1#8, 2#8, 3#8, 9#8] && t.rsp == .none) &&
      answers (exec (.squirtInt 1#64 8) (sink4 [])) (fun t => t.rsp == .blocked && t.outbuf == []) = true := by decide

theorem test_squirt_fixed32 :
    answers (exec (.squirtFixed32 0xDEADBEEFCAFEBABE#64) State.reset)
      (fun t => t.outbuf == [0xCA#8, 0xFE#8, 0xBA#8, 0xBE#8] && t.rsp == .done) = true := by decide

/-! ## IntegerDecoder (spec 95, 2.5) -/

theorem test_suck_int :
    answers (exec (.suckInt 4) (withInput [0x00#8, 0x00#8, 0x01#8, 0x00#8, 0xAA#8]))
        (fun t => t.rsp == .doneValue 0x100#64 && t.inbuf == [0xAA#8]) &&
      answers (exec (.suckInt 8) (withInput [0x80#8, 0#8, 0#8, 0#8, 0#8, 0#8, 0#8, 0#8]))
        (fun t => t.rsp == .doneValue 0x8000000000000000#64) = true := by decide

theorem test_suck_int_blocked_and_bad_length :
    answers (exec (.suckInt 8) (withInput [1#8, 2#8, 3#8, 4#8, 5#8, 6#8, 7#8]))
        (fun t => t.rsp == .blocked && t.inbuf == [1#8, 2#8, 3#8, 4#8, 5#8, 6#8, 7#8]) &&
      answers (exec (.suckInt 3) State.reset) (fun t => readStatus t == 0x21#8 && t.rsp == .none) = true := by decide

theorem test_suck_fixed32 :
    answers (exec .suckFixed32 (withInput [0xDE#8, 0xAD#8, 0xBE#8, 0xEF#8, 0x01#8]))
        (fun t => t.rsp == .doneValue 0xDEADBEEF#64 && t.inbuf == [0x01#8]) &&
      answers (exec .suckFixed32 (withInput [0xFF#8, 0xFF#8, 0xFF#8])) (fun t => t.rsp == .blocked) = true := by decide

/-! ## The halt, reset and the agents (spec 95, 2.6, P4 and P5) -/

theorem test_illegal_word_halts :
    answers (step (issuing 0x740000000000000004#72 State.reset))
      (fun t => readStatus t == 0x11#8 && t.rsp == .none && t.pc == 0) = true := by decide

theorem test_halted_has_no_step :
    faults (performWord 0x700000000000000000#72 halted) .halted &&
      faults (step (issuing 0x400000000000000000#72 halted)) .halted = true := by decide

theorem test_reset_keeps_the_streams :
    answers (step { halted with agenda := [.reset], rsp := .done })
      (fun t => readStatus t == 0x00#8 && readRspCode t == 0b00#2 && t.inbuf == [0x11#8, 0x22#8] &&
        t.outbuf == [0x7E#8]) = true := by decide

theorem test_drain :
    answers (step { sink4 [1#8, 2#8, 3#8, 9#8] with agenda := [.drain 2] })
      (fun t => t.delivered == [1#8, 2#8] && t.outbuf == [3#8, 9#8]) = true := by decide

theorem test_moves_no_agent_has_are_refused :
    refuses (step { State.reset with agenda := [.produce []] }) .producesNothing &&
      refuses (step { State.reset with outbuf := [1#8], agenda := [.drain 1] }) .drainsUnboundedSink &&
      refuses (step { sink4 [1#8] with agenda := [.drain 2] }) .drainsOutOfRange &&
      refuses (step { sink4 [1#8] with agenda := [.drain 0] }) .drainsOutOfRange &&
      refuses (step { State.reset with agenda := [.cancel] }) .cancelsNothing = true := by decide

/-- R38: held, then released by a producer step; a halted run is faulted; a run at its program's end is final. -/
theorem test_run_status :
    runStatus heldState = .held ∧
    answers (step { heldState with agenda := [.produce [1#8]] }) (fun t => runStatus t == .running) = true ∧
    runStatus halted = .faulted ∧ runStatus State.reset = .final := by decide

/-- R39: the observation of one step, `suck_byte` on the byte 0xAB. -/
theorem test_observe :
    observe 1 [] (issuing 0x400000000000000000#72 (withInput [0xAB#8])) =
      ⟨.final, [.doneValue 0xAB#64], [], []⟩ := by decide

/-- R28: reading RSP_VALUE when it holds no value is the reader's fault. -/
theorem test_read_rsp_value_faults : readRspValue heldState = .error .noResponseValue := by decide

/-! ## Witnesses: the hypotheses of each statement can be met, each clause at a boundary -/

theorem room_for (n : Nat) (s : State) (h : hasRoom n s = true) : RoomFor n s := (hasRoom_iff n s).1 h
theorem no_room_for (n : Nat) (s : State) (h : hasRoom n s = false) : NoRoomFor n s := (not_hasRoom_iff n s).1 h

theorem witness_DecoderFollowsTheOpcodeMap :
    (8 ≤ (0x8#4).toNat) ∧ (0x7#4 = 0x7#4 ∧ 0x1#4 ≠ 0x0#4) := by decide

theorem witness_IllegalHeadersHaltTheCodec :
    (IsIllegalHeader 0x0F#8 ∧ IsIllegalHeader 0x80#8 ∧ IsIllegalHeader 0x11#8 ∧ IsIllegalHeader 0x7F#8 ∧
      Running State.reset) ∧
    CallerIssues (issuing (mkCmd 0x7F#8 0#64) State.reset) (issuing (mkCmd 0x7F#8 0#64) State.reset)
      (mkCmd 0x7F#8 0#64) ∧
    CallerIssues { issuing (mkCmd 0x7F#8 0#64) State.reset with agenda := [.issue, .reset] }
      { issuing (mkCmd 0x7F#8 0#64) State.reset with agenda := [.reset] } (mkCmd 0x7F#8 0#64) :=
  ⟨by decide, callerIssues_idle rfl (by decide) rfl, callerIssues_turn rfl (by decide) rfl⟩

theorem witness_DecodeAfterEncodeIsIdentity : (Instr.suckInt 15).wf = true := by decide

theorem witness_DecodedWordsAreEncodings : decode 0x5F0000000000000001#72 = .ok (.suckInt 15) := by decide

theorem witness_IgnoredOperandBitsHaveNoEffect :
    (0x1AB#64).extractLsb' 0 8 = (0xAB#64).extractLsb' 0 8 ∧ (0x5F#8).toNat / 16 = 5 := by decide

theorem witness_SelectLengthFollowsItsRule : Running State.reset ∧ (0xF#4 ≠ 0x0#4) := by decide

theorem witness_SquirtByteFollowsItsRule :
    (Running (sink4 [1#8, 2#8, 3#8]) ∧ RoomFor 1 (sink4 [1#8, 2#8, 3#8])) ∧
    (Running (sink4 [1#8, 2#8, 3#8, 4#8]) ∧ NoRoomFor 1 (sink4 [1#8, 2#8, 3#8, 4#8])) ∧ RoomFor 1 State.reset :=
  ⟨⟨rfl, room_for _ _ (by decide)⟩, ⟨rfl, no_room_for _ _ (by decide)⟩, room_for _ _ (by decide)⟩

theorem witness_SuckByteFollowsItsRule :
    (Running (withInput [0xFF#8]) ∧ (withInput [0xFF#8]).inbuf = 0xFF#8 :: []) ∧
    (Running State.reset ∧ State.reset.inbuf = []) := by decide

theorem witness_SquirtIntFollowsItsRule :
    (isLegalLength 4 ∧ Running (sink4 []) ∧ RoomFor 4 (sink4 [])) ∧
    (isLegalLength 4 ∧ Running (sink4 [1#8]) ∧ NoRoomFor 4 (sink4 [1#8])) ∧
    (¬ isLegalLength 0 ∧ ¬ isLegalLength 3 ∧ ¬ isLegalLength 9 ∧ ¬ isLegalLength 15 ∧ Running (sink4 [])) :=
  ⟨⟨by decide, rfl, room_for _ _ (by decide)⟩, ⟨by decide, rfl, no_room_for _ _ (by decide)⟩, by decide⟩

theorem witness_SquirtFixed32FollowsItsRule :
    (Running (sink4 []) ∧ RoomFor 4 (sink4 [])) ∧ (Running (sink4 [1#8]) ∧ NoRoomFor 4 (sink4 [1#8])) :=
  ⟨⟨rfl, room_for _ _ (by decide)⟩, ⟨rfl, no_room_for _ _ (by decide)⟩⟩

theorem witness_SuckIntFollowsItsRule :
    (isLegalLength 2 ∧ Running (withInput [1#8, 2#8]) ∧ [1#8, 2#8].length = 2 ∧
      (withInput [1#8, 2#8]).inbuf = [1#8, 2#8] ++ []) ∧
    (isLegalLength 2 ∧ Running (withInput [1#8]) ∧ (withInput [1#8]).inbuf.length < 2) ∧
    (¬ isLegalLength 3 ∧ Running State.reset) := by decide

theorem witness_SuckFixed32FollowsItsRule :
    (Running (withInput [1#8, 2#8, 3#8, 4#8]) ∧
      (withInput [1#8, 2#8, 3#8, 4#8]).inbuf = 1#8 :: 2#8 :: 3#8 :: 4#8 :: []) ∧
    (Running (withInput [1#8, 2#8, 3#8]) ∧ (withInput [1#8, 2#8, 3#8]).inbuf.length < 4) := by decide

theorem witness_SelectedLengthIsMinbytesRoundedUp : Running State.reset ∧ minbytes 0xFFFFFF#64 = 3 := by decide

theorem witness_SelectedLengthLosesNoBits :
    Running (sink4 [1#8]) ∧ Running State.reset ∧
    ((canonicalLength 0x1FF#64).bytes = 2 ∧ RoomFor 2 (sink4 [1#8])) ∧
    (isLegalLength 1 ∧ 1 < 2 ∧ RoomFor 1 (sink4 [1#8])) :=
  ⟨rfl, rfl, ⟨by decide, room_for _ _ (by decide)⟩, by decide, by decide, room_for _ _ (by decide)⟩

theorem witness_IntegerRoundTrip :
    isLegalLength 4 ∧ Running (sink4 []) ∧ RoomFor 4 (sink4 []) ∧ Running State.reset ∧
      bitlength 0xFFFFFFFF#64 ≤ 8 * 4 :=
  ⟨by decide, rfl, room_for _ _ (by decide), rfl, by decide⟩

theorem witness_TruncationKeepsTheLowBytes :
    (isLegalLength 4 ∧ Running (sink4 []) ∧ RoomFor 4 (sink4 [])) ∧ bitlength 0xFF#64 ≤ 8 * 1 ∧
      (0x1FF#64).toNat % 2 ^ (8 * 1) = (0xFF#64).toNat % 2 ^ (8 * 1) :=
  ⟨⟨by decide, rfl, room_for _ _ (by decide)⟩, by decide, by decide⟩

theorem witness_SpecialFormsEqualGeneralForms :
    answers (exec .suckFixed32 (withInput [0xFF#8, 0xFF#8, 0xFF#8, 0xFF#8]))
      (fun t => t.rsp == .doneValue 0xFFFFFFFF#64) = true := by decide

theorem witness_ReadValuesStayInRange :
    (isLegalLength 1 ∧ Running (withInput [0xFF#8]) ∧ [0xFF#8].length = 1 ∧
      (withInput [0xFF#8]).inbuf = [0xFF#8] ++ []) ∧
    answers (exec .suckByte (withInput [0xFF#8])) (fun t => t.rsp == .doneValue 0xFF#64) = true := by decide

theorem witness_MixedWidthReadsFollowTheBytes :
    (Running (withInput [1#8, 2#8, 3#8, 4#8]) ∧
      (withInput [1#8, 2#8, 3#8, 4#8]).inbuf = 1#8 :: 2#8 :: 3#8 :: 4#8 :: []) ∧
    (withInput [1#8, 2#8, 3#8, 4#8, 5#8, 6#8, 7#8, 8#8]).inbuf =
      1#8 :: 2#8 :: 3#8 :: 4#8 :: 5#8 :: 6#8 :: 7#8 :: 8#8 :: [] := by decide

theorem witness_ReadsAreAllOrNothing :
    readWidth (.suckInt 8) = some 8 ∧ isLegalLength 8 ∧ Running (withInput [1#8]) ∧ (withInput [1#8]).inbuf.length < 8 ∧
    readWidth .suckByte = some 1 ∧ isLegalLength 1 ∧ 1 ≤ (withInput [1#8]).inbuf.length := by decide

theorem witness_WritesAreAllOrNothing :
    (writeWidth (.squirtInt 0#64 2) = some 2 ∧ isLegalLength 2) ∧
    (Running (sink4 [1#8, 2#8]) ∧ RoomFor 2 (sink4 [1#8, 2#8])) ∧
    (Running (sink4 [1#8, 2#8, 3#8]) ∧ NoRoomFor 2 (sink4 [1#8, 2#8, 3#8])) ∧ State.reset.cfg.outCap = none :=
  ⟨by decide, ⟨rfl, room_for _ _ (by decide)⟩, ⟨rfl, no_room_for _ _ (by decide)⟩, rfl⟩

theorem witness_BlockedChangesOnlyTheResponse :
    performWord 0x400000000000000000#72 State.reset = .next { State.reset with rsp := .blocked } ∧
    Running { State.reset with rsp := .blocked } := ⟨rfl, rfl⟩

theorem witness_RetryWithoutInputChangesNothing :
    CallerIssues heldState heldState 0x400000000000000000#72 ∧ CallersTurn heldState heldState ∧
    performWord 0x400000000000000000#72 heldState = .next heldState ∧ Running heldState ∧ heldState.rsp = .blocked :=
  ⟨callerIssues_idle rfl (by decide) rfl, .inl ⟨rfl, rfl⟩, rfl, rfl, rfl⟩

theorem witness_BlockedReadResumesAfterInput :
    let s := { issuing 0x540000000000000000#72 (withInput [1#8, 2#8]) with
      agenda := .issue :: ([[3#8], [4#8]].map .produce ++ .issue :: [.reset]) }
    decode 0x540000000000000000#72 = .ok (.suckInt 4) ∧ isLegalLength 4 ∧ Running s ∧ s.phase ≠ .cancelled ∧
    s.program[s.pc]? = some 0x540000000000000000#72 ∧ s.inbuf.length < 4 ∧
    (∀ c ∈ [[3#8], [4#8]], c ≠ []) ∧ 4 ≤ (s.inbuf ++ [[3#8], [4#8]].flatten).length := by decide

theorem witness_FirstFailingCheckDecides :
    halted.status.fatal = true ∧
    (Running State.reset ∧ rejects 0x000000000000000000#72 (.opNotAssigned 0#4) = true) ∧
    (decode 0x530000000000000000#72 = .ok (.suckInt 3) ∧ lengthOperand (.suckInt 3) = some 3 ∧ ¬ isLegalLength 3) ∧
    (decode 0x540000000000000000#72 = .ok (.suckInt 4) ∧ isLegalLength 4 ∧ readWidth (.suckInt 4) = some 4 ∧
      State.reset.inbuf.length < 4) ∧
    (decode 0x280000000000000000#72 = .ok (.squirtInt 0#64 8) ∧ writeWidth (.squirtInt 0#64 8) = some 8 ∧
      NoRoomFor 8 (sink4 [])) ∧
    (decode 0x240000000000000000#72 = .ok (.squirtInt 0#64 4) ∧ writeWidth (.squirtInt 0#64 4) = some 4 ∧
      readWidth (.squirtInt 0#64 4) = none ∧ RoomFor 4 (sink4 [])) :=
  ⟨rfl, by decide, by decide, by decide, ⟨by decide, rfl, no_room_for _ _ (by decide)⟩,
    ⟨by decide, rfl, rfl, room_for _ _ (by decide)⟩⟩

theorem witness_BadLengthIsRaisedExactlyForBadLengths :
    Running State.reset ∧ lengthOperand (.suckInt 0) = some 0 ∧ ¬ isLegalLength 0 := by decide

theorem witness_FatalChangesOnlyStatus :
    performWord 0x530000000000000000#72 State.reset = .next { State.reset with status := ⟨true, 0x2#4⟩ } ∧
    performWord 0x000000000000000000#72 State.reset = .next { State.reset with status := ⟨true, 0x1#4⟩ } :=
  ⟨rfl, rfl⟩

theorem witness_HaltedUntilReset :
    halted.status.fatal = true ∧ ({ halted with agenda := [.reset] } : State).agenda = .reset :: [] ∧
    answers (step { halted with agenda := [.reset] }) (fun t => decide (Running t)) = true := by decide

theorem witness_ResetClearsTheCodecOnly :
    ({ halted with agenda := [.reset] } : State).agenda = .reset :: [] ∧
    ({ halted with agenda := [.load []] } : State).agenda = .load [] :: [] := by decide

theorem witness_ResultIgnoresTheResponseLatch :
    heldState.cfg = State.reset.cfg ∧ heldState.inbuf = State.reset.inbuf ∧ heldState.outbuf = State.reset.outbuf ∧
    heldState.status.fatal = State.reset.status.fatal ∧ heldState.rsp ≠ State.reset.rsp ∧
    performWord 0x700000000000000000#72 heldState = .next { heldState with rsp := .doneValue 1#64 } ∧
    faults (performWord 0x700000000000000000#72 halted) .halted = true :=
  ⟨rfl, rfl, rfl, rfl, by decide, rfl, by decide⟩

theorem witness_StatusLayoutAndWriters :
    MachineInv State.reset ∧ answers (step { halted with agenda := [.reset] }) (fun _ => true) = true ∧
    answers (step (issuing 0x530000000000000000#72 State.reset)) (fun t => readStatus t == 0x21#8) = true :=
  ⟨⟨fun _ => rfl, by decide, (fun c h => by cases h), by decide, by decide⟩, by decide⟩

theorem witness_ResponseLatchEncodingAndWriters :
    answers (performWord 0x400000000000000000#72 heldState) (fun t => decide (Running t)) = true ∧
    answers (performWord 0x530000000000000000#72 heldState) (fun t => t.status.fatal) = true ∧
    answers (step (issuing 0x400000000000000000#72 State.reset)) (fun t => t.rsp == .blocked) = true ∧
    answers (step { halted with agenda := [.reset] }) (fun _ => true) = true := by decide

theorem witness_LoadChangesOnlyTheCaller :
    ({ halted with agenda := [.load [0x400000000000000000#72]] } : State).agenda =
      .load [0x400000000000000000#72] :: [] := by decide

theorem witness_CallerMovesOnlyByResponsesAndLoads :
    answers (step (issuing 0x100000000000000000#72 State.reset)) (fun t => t.pc == 1) = true ∧
    answers (step { State.reset with agenda := [.load [0x400000000000000000#72]] }) (fun _ => true) = true := by decide

theorem witness_ResponseValueOnlyWithDoneValue :
    readRspCode { State.reset with rsp := .doneValue 7#64 } = 0b10#2 ∧ readRspCode heldState ≠ 0b10#2 := by decide

theorem witness_InputGrowsAtTheBackAndIsReadFromTheFront :
    ({ heldState with agenda := [.produce [1#8]] } : State).agenda = .produce [1#8] :: [] ∧ [1#8] ≠ [] ∧
    answers (step (issuing 0x400000000000000000#72 (withInput [1#8]))) (fun t => t.inbuf == []) = true := by decide

theorem witness_ConsumerStepKeepsTheOutputLog :
    let s := { sink4 [1#8, 2#8] with agenda := [.drain 2] }
    s.agenda = .drain 2 :: [] ∧ s.cfg.outCap = some 4 ∧ 1 ≤ 2 ∧ 2 ≤ s.outbuf.length := by decide

theorem witness_OutputIsNeverTakenBack :
    answers (step (issuing 0x280102030405060708#72 State.reset)) (fun t => t.outLog.length == 8) = true ∧
    answers (step { sink4 [1#8, 2#8] with agenda := [.drain 2] }) (fun t => t.delivered.length == 2) = true := by decide

theorem witness_CallerFollowsTheResponse :
    let s := issuing 0x700000000000000000#72 State.reset
    CallerIssues s s 0x700000000000000000#72 ∧
    CallerIssues { s with agenda := [.issue] } { s with agenda := [] } 0x700000000000000000#72 ∧
    answers (performWord 0x700000000000000000#72 s) (fun t => decide (Running t) && t.rsp == .doneValue 1#64) = true ∧
    answers (performWord 0x400000000000000000#72 heldState) (fun t => decide (Running t) && t.rsp == .blocked) = true ∧
    answers (performWord 0x100000000000000000#72 State.reset) (fun t => decide (Running t) && t.rsp == .done) = true :=
  ⟨callerIssues_idle rfl (by decide) rfl, callerIssues_turn rfl (by decide) rfl, by decide⟩

theorem witness_PhaseRecordsTheRetryDiscipline :
    CallerIssues heldState heldState 0x400000000000000000#72 ∧
    answers (performWord 0x400000000000000000#72 heldState) (fun t => decide (Running t)) = true ∧
    answers (step { heldState with agenda := [.produce [1#8]] }) (fun t => t.phase == .retrying) = true ∧
    answers (step { sink4 [1#8] with agenda := [.drain 1] }) (fun t => t.phase == .ready) = true :=
  ⟨callerIssues_idle rfl (by decide) rfl, by decide⟩

theorem witness_StepRunsTheDecodedCommand :
    let s := issuing 0x400000000000000000#72 State.reset
    CallerIssues s s 0x400000000000000000#72 ∧
    CallerIssues { s with agenda := [.issue] } { s with agenda := [] } 0x400000000000000000#72 ∧
    decode 0x400000000000000000#72 = .ok .suckByte ∧ answers (exec .suckByte s) (fun _ => true) = true ∧
    answers (performWord 0x000000000000000000#72 s) (fun _ => true) = true ∧
    faults (exec .suckByte halted) .halted = true :=
  ⟨callerIssues_idle rfl (by decide) rfl, callerIssues_turn rfl (by decide) rfl, by decide⟩

theorem witness_PlacedWordIsIssuedNext :
    let s := { State.reset with program := [0x100000000000000000#72], pc := 1 }
    0 < s.pc ∧ 0 < s.program.length ∧
    (s.withFetchWord 8 0x40).program = [0x100000000000000000#72, 0x400000000000000000#72] := by decide

theorem witness_CancelledCallerIssuesNothing :
    (({ heldState with agenda := [.cancel] } : State).agenda = .cancel :: [] ∧ heldState.phase = .held ∧
      ({ heldState with phase := .cancelled } : State).phase = .cancelled ∧ Running heldState) ∧
    (CallersTurn State.reset State.reset ∧ State.reset.program[State.reset.pc]? = none) ∧
    CallersTurn { halted with agenda := [.issue, .reset] } { halted with agenda := [.reset] } :=
  ⟨by decide, ⟨.inl ⟨rfl, rfl⟩, rfl⟩, .inr ⟨_, rfl, rfl⟩⟩

theorem witness_CommandsTouchOnlyTheirOwnStream :
    answers (exec (.squirtByte 1#8) State.reset) (fun _ => true) = true ∧ readWidth (.squirtByte 1#8) = none ∧
    writeWidth .suckByte = none ∧ lengthOperand .suckByte = none := by decide

theorem witness_ResponsesByCommandKind :
    answers (exec (.squirtByte 1#8) State.reset) (fun t => decide (Running t)) = true ∧
    writeWidth (.squirtByte 1#8) ≠ none ∧ State.reset.cfg.outCap = none ∧
    answers (exec .suckByte State.reset) (fun t => decide (Running t)) = true ∧ readWidth .suckByte ≠ none ∧
    answers (exec (.selectLength 0#64) State.reset) (fun t => decide (Running t)) = true := by decide

theorem witness_InvariantsHoldAfterReset : IsLaunch (sink4 [1#8, 2#8, 3#8, 4#8]) :=
  ⟨by decide, by decide, rfl, rfl, room_for _ _ (by decide)⟩

theorem witness_RunStatusClassifiesRuns : MachineInv heldState ∧ runStatus heldState = .held :=
  ⟨⟨fun _ => rfl, by decide, (fun c h => by cases h), by decide, by decide⟩, by decide⟩

theorem witness_EveryStepKeepsTheInvariant :
    let s := issuing 0x100000000000000009#72 (sink4 [1#8, 2#8, 3#8])
    MachineInv s ∧ answers (step s) (fun t => t.outbuf.length == 4) = true :=
  ⟨⟨fun _ => rfl, by decide, (fun c h => by cases h; decide), by decide, by decide⟩, by decide⟩

theorem witness_HeldCommandStaysBlocked :
    HeldBlocks heldState ∧ answers (step heldState) (fun t => t == heldState) = true :=
  ⟨fun _ => ⟨rfl, _, rfl, rfl⟩, by decide⟩

end Sys2Proof.Tests
end

section
/-! SUPPORT. What performing a command word can do and what it depends on (spec/10_state.md R23, R27, R31, R183), and
what the caller's turn makes of it (R36). -/

namespace Sys2Proof.Proofs

open Sys2Proof.Machine

/-! ## What a performed word leaves -/

theorem readWidth_isLegalLength {i : Instr} {n : Nat} (hw : readWidth i = some n)
    (hok : ∀ len, lengthOperand i = some len → isLegalLength len) : isLegalLength n := by
  cases i with
  | suckByte => cases hw; decide
  | suckFixed32 => cases hw; decide
  | suckInt len => cases hw; exact hok _ rfl
  | squirtByte | squirtInt | squirtFixed32 | selectLength => cases hw

/-- No command both reads and writes (R62). -/
theorem readWidth_or_writeWidth_eq_none (i : Instr) : readWidth i = none ∨ writeWidth i = none := by
  cases i with
  | squirtByte | squirtInt | squirtFixed32 => exact .inl rfl
  | suckByte | suckInt | suckFixed32 | selectLength => exact .inr rfl

theorem performWord_halted {cw : CmdWord} {s : State} (h : s.status.fatal = true) :
    performWord cw s = .fault .halted := by
  unfold performWord
  cases decode cw with
  | ok i => exact exec_halted h
  | error e => exact whenRunning_halted h

theorem performWord_running {cw : CmdWord} {s : State} (h : Running s) : ∃ t, performWord cw s = .next t := by
  unfold performWord
  cases decode cw with
  | ok i => exact exec_running h
  | error e => exact ⟨_, whenRunning_running h⟩

/-- Everything performing a word can do (R27, R183, R187): raise one of the two causes, or complete with Blocked, a
write, a read, or a length. -/
inductive WordEffect (cw : CmdWord) (s : State) : State → Prop where
  | fatal (c : Cause) (hc : c = .illegalCommand ∨ c = .badLength) : WordEffect cw s (raiseFatal c s)
  | blocked : WordEffect cw s { s with rsp := .blocked }
  | wrote (bs : List Byte) : WordEffect cw s { s with outbuf := s.outbuf ++ bs, rsp := .done }
  | read (i : Instr) (n : Nat) (v : Value) (hd : decode cw = .ok i) (hw : readWidth i = some n)
      (hl : isLegalLength n) (hn : n ≤ s.inbuf.length) :
      WordEffect cw s { s with inbuf := s.inbuf.drop n, rsp := .doneValue v }
  | selected (v : Value) : WordEffect cw s { s with rsp := .doneValue v }

theorem performWord_effect {cw : CmdWord} {s t : State} (h : performWord cw s = .next t) :
    Running s ∧ WordEffect cw s t := by
  rcases performWord_eq_next h with ⟨e, -, hr, rfl⟩ | ⟨i, hd, hx⟩
  · exact ⟨hr, .fatal _ (.inl rfl)⟩
  · obtain ⟨hr, he⟩ := exec_effect hx
    refine ⟨hr, ?_⟩
    cases he with
    | badLength len hl hbad => exact .fatal _ (.inr rfl)
    | blocked n hok hw => exact .blocked
    | wrote bs hok hw hroom => exact .wrote bs
    | read n v hok hw hn => exact .read i n v hd hw (readWidth_isLegalLength hw hok) hn
    | selected v => exact .selected v

/-- A fatal word ran the fatal sequence (R183). -/
theorem performWord_fatal {cw : CmdWord} {s t : State} (h : performWord cw s = .next t)
    (ht : t.status.fatal = true) : ∃ c, (c = .illegalCommand ∨ c = .badLength) ∧ t = raiseFatal c s := by
  obtain ⟨hr, he⟩ := performWord_effect h
  cases he with
  | fatal c hc => exact ⟨c, hc, rfl⟩
  | blocked | wrote | read | selected => exact absurd (hr.symm.trans ht) Bool.false_ne_true

/-- A completed word has left STATUS and written RSP (R27, R192). -/
theorem performWord_completed {cw : CmdWord} {s t : State} (h : performWord cw s = .next t) (ht : Running t) :
    t.status = s.status ∧ t.rsp ≠ .none := by
  obtain ⟨hr, he⟩ := performWord_effect h
  cases he with
  | fatal c hc => cases ht
  | blocked | wrote | read | selected => exact ⟨rfl, nofun⟩

/-- A word writes the two streams, STATUS and RSP only. -/
theorem performWord_frame {cw : CmdWord} {s t : State} (h : performWord cw s = .next t) :
    t = { s with inbuf := t.inbuf, outbuf := t.outbuf, status := t.status, rsp := t.rsp } := by
  cases (performWord_effect h).2 <;> rfl

/-- A Blocked word has written RSP only (R192). -/
theorem performWord_blocked {cw : CmdWord} {s t : State} (h : performWord cw s = .next t) (ht : Running t)
    (hb : t.rsp = .blocked) : t = { s with rsp := .blocked } := by
  cases (performWord_effect h).2 with
  | fatal c hc => cases ht
  | blocked => rfl
  | wrote | read | selected => cases hb

/-! ## What a performed word depends on (R23) -/

/-- What a command reads of the state: the streams with the sink's capacity, and `STATUS.FATAL`. -/
structure SameInputs (s s' : State) : Prop where
  cfg : s.cfg = s'.cfg
  inbuf : s.inbuf = s'.inbuf
  outbuf : s.outbuf = s'.outbuf
  fatal : s.status.fatal = s'.status.fatal

/-- What counts as a command's result: both streams, FATAL, the response of a command that completes and the STATUS of
one that is fatal. -/
structure SameResult (t t' : State) : Prop where
  inbuf : t'.inbuf = t.inbuf
  outbuf : t'.outbuf = t.outbuf
  fatal : t'.status.fatal = t.status.fatal
  status : t.status.fatal = true → t'.status = t.status
  rsp : Running t → t'.rsp = t.rsp

/-- Same response and streams, on two running states that keep their STATUS. -/
theorem sameResult_of_running {s s' t t' : State} (h : SameInputs s s') (hr : Running s)
    (ht : t.status = s.status) (ht' : t'.status = s'.status)
    (hi : t'.inbuf = t.inbuf) (ho : t'.outbuf = t.outbuf) (hrsp : t'.rsp = t.rsp) : SameResult t t' where
  inbuf := hi
  outbuf := ho
  fatal := by rw [ht, ht', h.fatal]
  status hf := by rw [ht, hr] at hf; cases hf
  rsp _ := hrsp

theorem respond_sameResult {s s' : State} (r : Resp) (h : SameInputs s s') (hr : Running s) :
    SameResult (respond r s) (respond r s') :=
  sameResult_of_running h hr rfl rfl h.inbuf.symm h.outbuf.symm rfl

theorem raiseFatal_sameResult {s s' : State} (c : Cause) (h : SameInputs s s') :
    SameResult (raiseFatal c s) (raiseFatal c s') :=
  ⟨h.inbuf.symm, h.outbuf.symm, rfl, fun _ => rfl, nofun⟩

theorem squirt_sameResult {s s' : State} (bs : List Byte) (h : SameInputs s s') (hr : Running s) :
    SameResult (squirt bs s) (squirt bs s') := by
  unfold squirt
  rw [← hasRoom_congr bs.length h.cfg h.outbuf]
  split
  · exact sameResult_of_running h hr rfl rfl h.inbuf.symm (by simp [h.outbuf]) rfl
  · exact respond_sameResult _ h hr

theorem suck_sameResult {s s' : State} (n : Nat) (value : List Byte → Value) (h : SameInputs s s') (hr : Running s) :
    SameResult (suck n value s) (suck n value s') := by
  have hlen : s.inbuf.length = s'.inbuf.length := congrArg List.length h.inbuf
  rcases suck_cases n value s with ⟨hn, e⟩ | ⟨hn, e⟩ <;> rcases suck_cases n value s' with ⟨hn', e'⟩ | ⟨hn', e'⟩
  · rw [e, e']
    exact respond_sameResult _ h hr
  · omega
  · omega
  · rw [e, e']
    exact sameResult_of_running h hr rfl rfl (by simp [h.inbuf]) h.outbuf.symm (by simp [h.inbuf])

theorem whenRunning_sameResult {s s' p p' t : State} (h : SameInputs s s') (hp : Running s → SameResult p p')
    (ht : whenRunning s p = .next t) : ∃ t', whenRunning s' p' = .next t' ∧ SameResult t t' := by
  obtain ⟨hr, rfl⟩ := whenRunning_eq_next.1 ht
  exact ⟨p', whenRunning_running (h.fatal ▸ hr), hp hr⟩

theorem exec_sameResult {i : Instr} {s s' t : State} (h : SameInputs s s') (ht : exec i s = .next t) :
    ∃ t', exec i s' = .next t' ∧ SameResult t t' := by
  cases i with
  | squirtByte b => exact whenRunning_sameResult h (squirt_sameResult [b] h) ht
  | squirtFixed32 v => exact whenRunning_sameResult h (squirt_sameResult (fixed32Bytes v) h) ht
  | suckByte => exact whenRunning_sameResult h (suck_sameResult 1 byteValue h) ht
  | suckFixed32 => exact whenRunning_sameResult h (suck_sameResult 4 fixed32Value h) ht
  | selectLength v => exact whenRunning_sameResult h (respond_sameResult _ h) ht
  | squirtInt v len =>
    refine whenRunning_sameResult h (fun hr => ?_) ht
    cases lengthOf? len with
    | none => exact raiseFatal_sameResult .badLength h
    | some l => exact squirt_sameResult (fieldBytes l v) h hr
  | suckInt len =>
    refine whenRunning_sameResult h (fun hr => ?_) ht
    cases lengthOf? len with
    | none => exact raiseFatal_sameResult .badLength h
    | some l => exact suck_sameResult l.bytes fieldValue h hr

theorem performWord_sameResult {cw : CmdWord} {s s' t : State} (h : SameInputs s s')
    (ht : performWord cw s = .next t) : ∃ t', performWord cw s' = .next t' ∧ SameResult t t' := by
  unfold performWord at ht ⊢
  cases hd : decode cw with
  | ok i =>
    rw [hd] at ht
    exact exec_sameResult h ht
  | error e =>
    rw [hd] at ht
    exact whenRunning_sameResult h (fun _ => raiseFatal_sameResult _ h) ht

/-- Whether a word finds the codec halted depends on FATAL alone (R32). -/
theorem performWord_fault_congr {cw : CmdWord} {s s' : State} {f : Fault} (h : SameInputs s s')
    (hf : performWord cw s = .fault f) : performWord cw s' = .fault f := by
  cases hs : s.status.fatal with
  | false =>
    obtain ⟨t, ht⟩ := performWord_running (cw := cw) hs
    cases hf.symm.trans ht
  | true =>
    cases hf.symm.trans (performWord_halted hs)
    exact performWord_halted (h.fatal ▸ hs)

/-- A word that completes leaves the same state, whatever RSP held (R23, R26). -/
theorem performWord_overwrites_rsp {cw : CmdWord} {s t : State} (r : Resp) (h : performWord cw s = .next t)
    (ht : Running t) : performWord cw { s with rsp := r } = .next t := by
  have hin : SameInputs s { s with rsp := r } := ⟨rfl, rfl, rfl, rfl⟩
  obtain ⟨t', h', hsame⟩ := performWord_sameResult hin h
  have hst := (performWord_completed h ht).1
  have hst' := (performWord_completed h' (hsame.fatal.trans ht)).1
  have htt' : t' = t := by
    rw [performWord_frame h', performWord_frame h, hsame.inbuf, hsame.outbuf, hsame.rsp ht, hst, hst']
  rw [h', htt']

/-- A word that is Blocked is Blocked on every state with the same streams and FATAL (R37). -/
theorem performWord_blocked_congr {cw : CmdWord} {s s' t : State} (h : SameInputs s s')
    (hp : performWord cw s = .next t) (ht : Running t) (hb : t.rsp = .blocked) :
    performWord cw s' = .next { s' with rsp := .blocked } := by
  obtain ⟨t', hp', hsame⟩ := performWord_sameResult h hp
  rw [hp', ← performWord_blocked hp' (hsame.fatal.trans ht) ((hsame.rsp ht).trans hb)]

/-! ## The caller's turn (R36) -/

theorem callerAdvance_fatal {t : State} (h : t.status.fatal = true) : callerAdvance t = t := by
  simp [callerAdvance, h]

theorem callerAdvance_done {t : State} (h : Running t) (hd : t.rsp = .done ∨ ∃ v, t.rsp = .doneValue v) :
    callerAdvance t = { t with pc := t.pc + 1, phase := .ready } := by
  rcases hd with hd | ⟨v, hd⟩ <;> simp [callerAdvance, h, hd]

theorem callerAdvance_blocked {t : State} (h : Running t) (hb : t.rsp = .blocked) :
    callerAdvance t = { t with phase := .held } := by
  simp [callerAdvance, h, hb]

/-- On its turn the caller reacts to the response of the word it issues. -/
theorem step_callerIssues {s u t : State} {cw : CmdWord} (h : CallerIssues s u cw)
    (ht : performWord cw u = .next t) : step s = .next (callerAdvance t) := by
  obtain ⟨hturn, hnext⟩ := callerIssues_iff.1 h
  rw [step_callersTurn hturn]
  exact issue_eq_next.2 (.inr ⟨cw, t, hnext, ht, rfl⟩)

/-- A held caller whose word leaves the state as it is repeats that state (R37). -/
theorem step_retry {s u : State} {cw : CmdWord} (h : CallerIssues s u cw) (hp : performWord cw u = .next u)
    (hb : u.rsp = .blocked) (hheld : u.phase = .held) : step s = .next u := by
  have hadv := callerAdvance_blocked (performWord_effect hp).1 hb
  rw [← hheld] at hadv
  rw [step_callerIssues h hp, hadv]

/-- The three ways a turn of the caller ends: nothing was issued, the word was fatal and is the whole step, or it
completed and the caller reacts. -/
theorem turn_cases {s u t : State} (hturn : CallersTurn s u) (h : issue u = .next t) :
    t = u ∨ ∃ cw, CallerIssues s u cw ∧ Running s ∧
      ((∃ c, (c = .illegalCommand ∨ c = .badLength) ∧ t = raiseFatal c u ∧ performWord cw u = .next t) ∨
        ∃ v, performWord cw u = .next v ∧ Running v ∧ t = callerAdvance v) := by
  rcases issue_eq_next.1 h with ⟨-, rfl⟩ | ⟨cw, v, hnext, hp, rfl⟩
  · exact .inl rfl
  · have hrun : Running s := by
      have hu := (performWord_effect hp).1
      rwa [callersTurn_frame hturn] at hu
    refine .inr ⟨cw, callerIssues_iff.2 ⟨hturn, hnext⟩, hrun, ?_⟩
    cases hv : v.status.fatal with
    | false => exact .inr ⟨v, hp, hv, rfl⟩
    | true =>
      rw [callerAdvance_fatal hv]
      obtain ⟨c, hc, hvc⟩ := performWord_fatal hp hv
      exact .inl ⟨c, hc, hvc, hp⟩

/-- STATUS and RSP are the codec's: outside the caller's turn only reset writes them (R40). -/
theorem step_codec_cases {s t : State} (h : step s = .next t) :
    (∃ u, CallersTurn s u ∧ issue u = .next t) ∨
    (∃ rest, s.agenda = .reset :: rest ∧ t = codecReset { s with agenda := rest }) ∨
    (t.status = s.status ∧ t.rsp = s.rsp) := by
  rcases step_cases h with hturn | ⟨_, _, -, -, rfl⟩ | ⟨_, _, _, -, -, -, -, rfl⟩ | hreset | ⟨_, -, -, rfl⟩ |
    ⟨_, _, -, rfl⟩
  · exact .inl hturn
  · exact .inr (.inr ⟨rfl, rfl⟩)
  · exact .inr (.inr ⟨rfl, rfl⟩)
  · exact .inr (.inl hreset)
  · exact .inr (.inr ⟨rfl, rfl⟩)
  · exact .inr (.inr ⟨rfl, rfl⟩)

end Sys2Proof.Proofs
end

section
/-! PROOFS. The statements of the family spec/10_state.md. -/

namespace Sys2Proof.Proofs

open Sys2Proof.Machine

/-! ## Responses and results -/

/-- Settles O24, by the five ways a command ends. -/
theorem responsesByCommandKind : Obligations.ResponsesByCommandKind := by
  intro i s t h ht
  obtain ⟨-, he⟩ := exec_effect h
  cases he with
  | badLength len hl hbad => cases ht
  | blocked n hok hw =>
    refine ⟨.inr (.inr ⟨rfl, rfl⟩), fun _ => .inr rfl, fun hwr hcap => ?_, fun _ => .inr rfl, ?_⟩
    · rcases hw with ⟨hrd, -⟩ | ⟨-, c, hc, -⟩
      · cases ((readWidth_or_writeWidth_eq_none i).resolve_right hwr).symm.trans hrd
      · cases hcap.symm.trans hc
    · rintro w rfl
      rcases hw with ⟨hrd, -⟩ | ⟨hwr, -⟩
      · cases hrd
      · cases hwr
  | wrote bs hok hw hroom =>
    have hrd : readWidth i = none := (readWidth_or_writeWidth_eq_none i).resolve_right (by simp [hw])
    refine ⟨.inl ⟨rfl, rfl⟩, fun _ => .inl rfl, fun _ _ => rfl, fun hne => absurd hrd hne, ?_⟩
    rintro w rfl
    cases hw
  | read n v hok hw hn =>
    have hwr : writeWidth i = none := (readWidth_or_writeWidth_eq_none i).resolve_left (by simp [hw])
    exact ⟨.inr (.inl ⟨v, rfl, rfl⟩), fun hne => absurd hwr hne, fun hne => absurd hwr hne,
      fun _ => .inl ⟨v, rfl⟩, fun _ _ => ⟨v, rfl⟩⟩
  | selected v hrd hwr hok =>
    exact ⟨.inr (.inl ⟨v, rfl, rfl⟩), fun hne => absurd hwr hne, fun hne => absurd hwr hne,
      fun hne => absurd hrd hne, fun _ _ => ⟨v, rfl⟩⟩

/-- Settles O33: the result is a function of what `SameInputs` names. -/
theorem resultIgnoresTheResponseLatch : Obligations.ResultIgnoresTheResponseLatch := by
  intro cw s s' hcfg hin hout hfat
  have h : SameInputs s s' := ⟨hcfg, hin, hout, hfat⟩
  refine ⟨fun f hf => performWord_fault_congr h hf, fun t ht => ?_⟩
  obtain ⟨t', ht', hsame⟩ := performWord_sameResult h ht
  exact ⟨t', ht', hsame.inbuf, hsame.outbuf, hsame.fatal, hsame.status, hsame.rsp⟩

/-- Settles O25: Blocked wrote RSP and the caller its phase, neither of which the word reads. -/
theorem retryWithoutInputChangesNothing : Obligations.RetryWithoutInputChangesNothing := by
  constructor
  · intro cw s t hp ht hb
    have hts := performWord_blocked hp ht hb
    have hsame : SameInputs s t := by rw [hts]; exact ⟨rfl, rfl, rfl, rfl⟩
    rw [performWord_blocked_congr hsame hp ht hb, ← hb]
  · intro s u cw v hi hp hv hb
    have ⟨hturn, _, hword⟩ := hi
    have hstep := step_callerIssues hi hp
    rw [callerAdvance_blocked hv hb, performWord_blocked hp hv hb] at hstep
    have hus := callersTurn_frame hturn
    refine ⟨_, hstep, rfl, by rw [hus], by rw [hus]; rfl, fun t' ht' => ?_⟩
    have ht't := callersTurn_frame ht'
    have hissues : CallerIssues { u with rsp := .blocked, phase := .held } t' cw := by
      refine ⟨ht', nofun, ?_⟩
      rw [hus]
      exact hword
    have hsame : SameInputs u t' := by rw [ht't]; exact ⟨rfl, rfl, rfl, rfl⟩
    have hb' : t'.rsp = .blocked := by rw [ht't]
    have hagain : performWord cw t' = .next t' := by
      rw [performWord_blocked_congr hsame hp hv hb, ← hb']
    exact step_retry hissues hagain hb' (by rw [ht't])

/-! ## STATUS and RSP -/

theorem word_running : Status.running.word = 0x00#8 := by decide
theorem word_halted_illegalCommand : (Status.halted .illegalCommand).word = 0x11#8 := by decide
theorem word_halted_badLength : (Status.halted .badLength).word = 0x21#8 := by decide

theorem readStatus_raiseFatal {c : Cause} (s : State) (hc : c = .illegalCommand ∨ c = .badLength) :
    readStatus (raiseFatal c s) = 0x11#8 ∨ readStatus (raiseFatal c s) = 0x21#8 := by
  rcases hc with rfl | rfl
  · exact .inl word_halted_illegalCommand
  · exact .inr word_halted_badLength

theorem readStatus_codecReset (s : State) : readStatus (codecReset s) = 0x00#8 := word_running

/-- The layout of STATUS (R24). -/
theorem status_word_fields (st : Status) :
    st.word.extractLsb' 0 1 = BitVec.ofBool st.fatal ∧ st.word.extractLsb' 1 3 = 0#3 ∧
      st.word.extractLsb' 4 4 = st.cause := by
  refine ⟨extract_low (st.cause ++ 0#3) (BitVec.ofBool st.fatal), ?_, ?_⟩
  · unfold Status.word
    rw [BitVec.extractLsb'_append_eq_of_le (by decide)]
    exact extract_low st.cause 0#3
  · unfold Status.word
    rw [BitVec.append_assoc]
    exact extract_high _ _

/-- The machine's invariant leaves STATUS three values (R24, R181). -/
theorem readStatus_of_machineInv {s : State} (h : MachineInv s) :
    readStatus s = 0x00#8 ∨ readStatus s = 0x11#8 ∨ readStatus s = 0x21#8 := by
  unfold readStatus Status.word
  cases hf : s.status.fatal with
  | false =>
    rw [h.causeClear hf]
    exact .inl rfl
  | true =>
    rcases h.causeRaised hf with hc | hc <;> rw [hc]
    · exact .inr (.inl rfl)
    · exact .inr (.inr rfl)

/-- STATUS is written by a fatal word the caller issues and by reset only (R24). -/
theorem step_status {s t : State} (h : step s = .next t) : t.status = s.status ∨
    (∃ u cw, CallerIssues s u cw ∧ Running s ∧ performWord cw u = .next t ∧
      (readStatus t = 0x11#8 ∨ readStatus t = 0x21#8)) ∨
    ((∃ rest, s.agenda = .reset :: rest) ∧ readStatus t = 0x00#8) := by
  rcases step_codec_cases h with ⟨u, hturn, hiss⟩ | ⟨rest, ha, rfl⟩ | ⟨hst, hrsp⟩
  · have hus := callersTurn_frame hturn
    rcases turn_cases hturn hiss with rfl | ⟨cw, hi, hr, ⟨c, hc, rfl, hp⟩ | ⟨v, hp, hv, rfl⟩⟩
    · exact .inl (by rw [hus])
    · exact .inr (.inl ⟨u, cw, hi, hr, hp, readStatus_raiseFatal u hc⟩)
    · exact .inl (by rw [callerAdvance_status, (performWord_completed hp hv).1, hus])
  · exact .inr (.inr ⟨⟨rest, ha⟩, readStatus_codecReset _⟩)
  · exact .inl hst

/-- Settles O34, from the layout, the invariant's causes, and the steps that write STATUS. -/
theorem statusLayoutAndWriters : Obligations.StatusLayoutAndWriters :=
  ⟨fun s => status_word_fields s.status, fun _ => readStatus_of_machineInv, fun _ _ => step_status⟩

/-- RSP is written by a completing word the caller issues and by reset only (R26). -/
theorem step_rsp {s t : State} (h : step s = .next t) : t.rsp = s.rsp ∨
    (∃ u cw v, CallerIssues s u cw ∧ performWord cw u = .next v ∧ Running v ∧ t.rsp = v.rsp) ∨
    ((∃ rest, s.agenda = .reset :: rest) ∧ readRspCode t = 0b00#2) := by
  rcases step_codec_cases h with ⟨u, hturn, hiss⟩ | ⟨rest, ha, rfl⟩ | ⟨hst, hrsp⟩
  · have hus := callersTurn_frame hturn
    rcases turn_cases hturn hiss with rfl | ⟨cw, hi, -, ⟨c, -, rfl, -⟩ | ⟨v, hp, hv, rfl⟩⟩
    · exact .inl (by rw [hus])
    · exact .inl (by rw [raiseFatal_rsp, hus])
    · exact .inr (.inl ⟨u, cw, v, hi, hp, hv, callerAdvance_rsp v⟩)
  · exact .inr (.inr ⟨⟨rest, ha⟩, rfl⟩)
  · exact .inl hrsp

theorem readRspCode_ne_zero {s : State} (h : s.rsp ≠ .none) : readRspCode s ≠ 0b00#2 := by
  unfold readRspCode
  cases hr : s.rsp with
  | none => exact absurd hr h
  | done | blocked | doneValue => simp [Resp.code]

/-- Settles O35: a completing word overwrites RSP and depends on no RSP; a fatal one is `raiseFatal`, which leaves it. -/
theorem responseLatchEncodingAndWriters : Obligations.ResponseLatchEncodingAndWriters := by
  refine ⟨fun s => ?_, fun cw s t r h ht => ?_, fun cw s t h ht => ?_, fun _ _ => step_rsp⟩
  · unfold readRspCode
    cases s.rsp <;> rfl
  · exact ⟨readRspCode_ne_zero (performWord_completed h ht).2, performWord_overwrites_rsp r h ht⟩
  · obtain ⟨c, -, rfl⟩ := performWord_fatal h ht
    exact raiseFatal_rsp c s

/-- Settles O36, by the four values of the latch. -/
theorem responseValueOnlyWithDoneValue : Obligations.ResponseValueOnlyWithDoneValue := by
  intro s
  unfold readRspCode readRspValue
  cases s.rsp with
  | none | done | blocked => exact ⟨by decide, fun _ => rfl⟩
  | doneValue v => exact ⟨fun _ => ⟨v, rfl, rfl⟩, fun h => absurd rfl h⟩

/-! ## The halt and reset -/

theorem step_reset {s : State} {rest : List Move} (ha : s.agenda = .reset :: rest) :
    step s = .next (codecReset { s with agenda := rest }) := by
  simp only [step, ha, takeMove]

/-- Settles O30; that a running state is reached by reset only is `step_status`, since a word that changes STATUS was
performed by a running codec. -/
theorem haltedUntilReset : Obligations.HaltedUntilReset := by
  refine ⟨fun i s hs => exec_halted hs, fun s t hs h ht => ?_, fun i s rest ha => ?_, fun s hs => ?_⟩
  · rcases step_status h with he | ⟨u, cw, -, hr, -⟩ | ⟨hreset, -⟩
    · rw [Running, he, hs] at ht
      cases ht
    · cases hr.symm.trans hs
    · exact hreset
  · obtain ⟨u, hu⟩ := exec_running (i := i) (s := codecReset { s with agenda := rest }) rfl
    exact ⟨_, u, step_reset ha, hu⟩
  · simp [runStatus, hs]

/-- Settles O31: the reset move is `codecReset`, which writes STATUS and RSP only. -/
theorem resetClearsTheCodecOnly : Obligations.ResetClearsTheCodecOnly := by
  refine ⟨fun s rest ha => ⟨_, step_reset ha, readStatus_codecReset _, rfl, rfl, rfl⟩,
    fun s program rest ha => ?_, word_running, rfl, rfl, rfl⟩
  exact ⟨{ s with program := program, pc := 0, phase := .ready, agenda := rest },
    by simp only [step, ha, takeMove, load], rfl, rfl⟩

/-! ## The agents around the codec -/

theorem step_produce {s : State} {bs : List Byte} {rest : List Move} (ha : s.agenda = .produce bs :: rest)
    (hbs : bs ≠ []) :
    step s = .next { s with inbuf := s.inbuf ++ bs, phase := s.phase.afterStream, agenda := rest } := by
  simp only [step, ha, takeMove, produce, if_neg hbs]

theorem step_drain {s : State} {k c : Nat} {rest : List Move} (ha : s.agenda = .drain k :: rest)
    (hc : s.cfg.outCap = some c) (hk : 1 ≤ k) (hlen : k ≤ s.outbuf.length) :
    step s = .next { s with delivered := s.delivered ++ s.outbuf.take k, outbuf := s.outbuf.drop k,
                            phase := s.phase.afterStream, agenda := rest } := by
  have hrange : ¬ (k = 0 ∨ s.outbuf.length < k) := by omega
  simp [step, ha, takeMove, drain, hc, hrange]

/-- The input stream after a word: as it was, or without the bytes a read took from its front (R33). -/
theorem performWord_inbuf {cw : CmdWord} {s t : State} (h : performWord cw s = .next t) : t.inbuf = s.inbuf ∨
    ∃ i n v, decode cw = .ok i ∧ readWidth i = some n ∧ isLegalLength n ∧ n ≤ s.inbuf.length ∧
      t.inbuf = s.inbuf.drop n ∧ t.rsp = .doneValue v := by
  cases (performWord_effect h).2 with
  | fatal | blocked | wrote | selected => exact .inl rfl
  | read i n v hd hw hl hn => exact .inr ⟨i, n, v, hd, hw, hl, hn, rfl, rfl⟩

/-- Settles O37, by the moves of a step: the producer's appends, a completing read takes from the front, no other
touches the input stream. -/
theorem inputGrowsAtTheBackAndIsReadFromTheFront : Obligations.InputGrowsAtTheBackAndIsReadFromTheFront := by
  refine ⟨fun s bs rest ha hbs => ⟨_, step_produce ha hbs⟩, fun s t h => ?_⟩
  rcases step_cases h with ⟨u, hturn, hiss⟩ | ⟨bs, rest, ha, -, rfl⟩ | ⟨_, _, _, -, -, -, -, rfl⟩ | ⟨_, -, rfl⟩ |
    ⟨_, -, -, rfl⟩ | ⟨_, _, -, rfl⟩
  · have hin : u.inbuf = s.inbuf := by rw [callersTurn_frame hturn]
    rcases turn_cases hturn hiss with rfl | ⟨cw, hi, hr, ⟨c, -, rfl, -⟩ | ⟨v, hp, -, rfl⟩⟩
    · exact .inl hin
    · exact .inl hin
    · rcases performWord_inbuf hp with he | ⟨i, n, w, hd, hw, hl, hn, he, hrsp⟩
      · exact .inl (by rw [callerAdvance_inbuf, he, hin])
      · rw [hin] at hn he
        exact .inr (.inr ⟨u, cw, i, n, w, hi, hr, hd, hw, hl, hn, by rw [callerAdvance_inbuf, he],
          by rw [callerAdvance_rsp, hrsp]⟩)
  · exact .inr (.inl ⟨bs, rest, ha, rfl⟩)
  · exact .inl rfl
  · exact .inl rfl
  · exact .inl rfl
  · exact .inl rfl

/-- Settles O38: the moved bytes are the front of the sink, so the log they are cut out of is the same. -/
theorem consumerStepKeepsTheOutputLog : Obligations.ConsumerStepKeepsTheOutputLog := by
  intro s k rest c ha hc hk hlen
  refine ⟨_, step_drain ha hc hk hlen, rfl, ?_⟩
  rw [outLog_eq, outLog_eq, List.append_assoc, List.take_append_drop]

/-- Settles O40: the step is `callerAdvance` of the state the word leaves. -/
theorem callerFollowsTheResponse : Obligations.CallerFollowsTheResponse := by
  intro s u cw t hi hp ht
  have ⟨hturn, _, hword⟩ := hi
  have hus := callersTurn_frame hturn
  have hstep := step_callerIssues hi hp
  refine ⟨fun hd => ⟨.ready, ?_⟩, fun hb => ⟨.held, ?_, ?_⟩⟩
  · have hpc : t.pc = s.pc := by rw [performWord_frame hp, hus]
    rw [hstep, callerAdvance_done ht hd, hpc]
  · rw [hstep, callerAdvance_blocked ht hb, performWord_blocked hp ht hb]
  · rw [nextCommand_eq_some, hus]
    exact ⟨nofun, hword⟩

end Sys2Proof.Proofs
end

section
/-! SUPPORT. What a read gives when its bytes stand at the front of the input stream (spec/20_memory.md R53, R58;
spec/43_integer_decoder.md R160). -/

namespace Sys2Proof.Proofs

open Sys2Proof.Machine

theorem suck_append {s : State} {bs rest : List Byte} (value : List Byte → Value) (hin : s.inbuf = bs ++ rest) :
    suck bs.length value s = { s with inbuf := rest, rsp := .doneValue (value bs) } := by
  rcases suck_cases bs.length value s with ⟨hshort, -⟩ | ⟨-, hread⟩
  · rw [hin, List.length_append] at hshort
    omega
  · rw [hread, hin, List.drop_left, List.take_left]

theorem exec_suckInt_append {s : State} {len : Nat} {bs rest : List Byte} (hlegal : isLegalLength len)
    (hr : Running s) (hlen : bs.length = len) (hin : s.inbuf = bs ++ rest) :
    exec (.suckInt len) s = .next { s with inbuf := rest, rsp := .doneValue (fieldValue bs) } := by
  rcases lengthOf_cases len with ⟨l, hl, hbytes, -⟩ | ⟨-, hbad⟩
  · refine (whenRunning_running hr).trans ?_
    rw [hl, ← suck_append fieldValue hin, hlen, ← hbytes]
  · exact absurd hlegal hbad

/-- The two bytes share no bit, so their sum is their bitwise or. -/
theorem fieldValue_pair (hi lo : Byte) : fieldValue [hi, lo] = (hi.setWidth 64 <<< 8) ||| lo.setWidth 64 := by
  have hsum : bigEndianNat [hi, lo] = hi.toNat <<< 8 ||| lo.toNat := by
    rw [← Nat.shiftLeft_add_eq_or_of_lt lo.isLt, Nat.shiftLeft_eq]
    simp [bigEndianNat]
  rw [fieldValue, hsum]
  exact BitVec.eq_of_toNat_eq (by simp [Nat.shiftLeft_eq])

end Sys2Proof.Proofs
end

section
/-! PROOFS. The statements of the family spec/20_memory.md. -/

namespace Sys2Proof.Proofs

open Sys2Proof.Machine

/-- Settles O20: each read takes the bytes at the front of what the read before it left, and the sum of those bytes is
the value at that width. -/
theorem mixedWidthReadsFollowTheBytes : Obligations.MixedWidthReadsFollowTheBytes := by
  constructor
  · intro b0 b1 b2 b3 rest s hr hin
    have hfirst := exec_suckInt_append (len := 2) (bs := [b0, b1]) (by decide) hr rfl hin
    rw [fieldValue_pair] at hfirst
    refine ⟨_, _, hfirst, rfl, ?_, rfl⟩
    rw [← fieldValue_pair b2 b3]
    exact exec_suckInt_append (bs := [b2, b3]) (by decide) hr rfl rfl
  · intro b0 b1 b2 b3 b4 b5 b6 b7 rest s hr hin
    have hread := exec_suckInt_append (len := 8) (bs := [b0, b1, b2, b3, b4, b5, b6, b7]) (by decide) hr rfl hin
    simpa [fieldValue, bigEndianNat, Nat.add_assoc] using hread

end Sys2Proof.Proofs
end

section
/-! SUPPORT. The decoder row by row (spec/30_encoding.md R82, R85), which headers are illegal (R87), and what
performing an illegal word does (spec/60_exceptions.md R182). -/

namespace Sys2Proof.Proofs

open Sys2Proof.Machine

/-! ## The header's fields as numbers (R81) -/

theorem hdrOp_toNat (hdr : Header) : (hdrOp hdr).toNat = hdr.toNat / 16 := by
  have hlt := hdr.isLt
  rw [hdrOp, BitVec.extractLsb'_toNat, Nat.shiftRight_eq_div_pow]
  omega

theorem hdrLen_toNat (hdr : Header) : (hdrLen hdr).toNat = hdr.toNat % 16 := by
  simp [hdrLen]

/-! ## The rows of the opcode map -/

theorem decode_mkCmd_ok {hdr : Header} {opcode : Opcode} (h : decodeHeader hdr = .ok opcode) (opnd : Value) :
    decode (mkCmd hdr opnd) = .ok (withOperands opcode (hdrLen hdr) opnd) := by
  rw [decode_mkCmd, h]

theorem decode_squirtByte (opnd : Value) :
    decode (mkCmd 0x10#8 opnd) = .ok (.squirtByte (opnd.extractLsb' 0 8)) :=
  decode_mkCmd_ok (opcode := .squirtByte) rfl opnd

theorem decode_squirtFixed32 (opnd : Value) : decode (mkCmd 0x30#8 opnd) = .ok (.squirtFixed32 opnd) :=
  decode_mkCmd_ok (opcode := .squirtFixed32) rfl opnd

theorem decode_suckByte (opnd : Value) : decode (mkCmd 0x40#8 opnd) = .ok .suckByte :=
  decode_mkCmd_ok (opcode := .suckByte) rfl opnd

theorem decode_suckFixed32 (opnd : Value) : decode (mkCmd 0x60#8 opnd) = .ok .suckFixed32 :=
  decode_mkCmd_ok (opcode := .suckFixed32) rfl opnd

theorem decode_selectLength (opnd : Value) : decode (mkCmd 0x70#8 opnd) = .ok (.selectLength opnd) :=
  decode_mkCmd_ok (opcode := .selectLength) rfl opnd

theorem decode_squirtInt (len : BitVec 4) (opnd : Value) :
    decode (mkCmd (0x2#4 ++ len) opnd) = .ok (.squirtInt opnd len.toNat) := by
  have hrow : decodeHeader (0x2#4 ++ len) = .ok .squirtInt := by simp [decodeHeader]
  rw [decode_mkCmd_ok hrow, hdrLen_append, withOperands]

theorem decode_suckInt (len : BitVec 4) (opnd : Value) :
    decode (mkCmd (0x5#4 ++ len) opnd) = .ok (.suckInt len.toNat) := by
  have hrow : decodeHeader (0x5#4 ++ len) = .ok .suckInt := by simp [decodeHeader]
  rw [decode_mkCmd_ok hrow, hdrLen_append, withOperands]

/-- A read command takes no operand bits (R83). -/
theorem decode_read_ignores_opnd {hdr : Header} (h : hdr = 0x40#8 ∨ hdr = 0x60#8 ∨ hdr.toNat / 16 = 5)
    (a b : Value) : decode (mkCmd hdr a) = decode (mkCmd hdr b) := by
  rcases h with rfl | rfl | h5
  · rw [decode_suckByte, decode_suckByte]
  · rw [decode_suckFixed32, decode_suckFixed32]
  · have hop : hdrOp hdr = 0x5#4 := BitVec.eq_of_toNat_eq ((hdrOp_toNat hdr).trans h5)
    rw [← hdr_fields hdr, hop, decode_suckInt, decode_suckInt]

/-! ## The illegal headers -/

theorem fixedLen_eq_error {opcode : Opcode} {len : BitVec 4} :
    (∃ e, fixedLen opcode len = .error e) ↔ len.toNat ≠ 0 := by
  unfold fixedLen
  split <;> simp_all [BitVec.toNat_eq]

/-- The decoder's errors are the ranges of R87. -/
theorem decodeHeader_eq_error {hdr : Header} : (∃ e, decodeHeader hdr = .error e) ↔ IsIllegalHeader hdr := by
  rw [IsIllegalHeader, ← hdrOp_toNat, ← hdrLen_toNat]
  unfold decodeHeader
  split
  case h_2 hop | h_5 hop => simp [hop]
  case h_8 h1 h2 h3 h4 h5 h6 h7 =>
    simp only [imp_false] at h1 h2 h3 h4 h5 h6 h7
    have hop : (hdrOp hdr).toNat = 0 ∨ 8 ≤ (hdrOp hdr).toNat := by omega
    simp [← or_assoc, hop]
  all_goals
    rename_i hop
    rw [fixedLen_eq_error]
    simp [hop]

theorem decode_mkCmd_eq_error {hdr : Header} {opnd : Value} :
    (∃ e, decode (mkCmd hdr opnd) = .error e) ↔ IsIllegalHeader hdr := by
  rw [← decodeHeader_eq_error, decode_mkCmd]
  cases decodeHeader hdr <;> simp

theorem isIllegalHeader_append {op len : BitVec 4} : IsIllegalHeader (op ++ len) ↔
    op.toNat = 0 ∨ 8 ≤ op.toNat ∨ (op.toNat ≠ 2 ∧ op.toNat ≠ 5 ∧ len.toNat ≠ 0) := by
  rw [IsIllegalHeader, ← hdrOp_toNat, ← hdrLen_toNat, hdrOp_append, hdrLen_append]

/-! ## Performing a word -/

/-- A word acts through what it decodes to only. -/
theorem performWord_congr {cw cw' : CmdWord} (h : decode cw = decode cw') (s : State) :
    performWord cw s = performWord cw' s := by
  rw [performWord, performWord, h]

theorem performWord_illegal {hdr : Header} {s : State} (h : IsIllegalHeader hdr) (hr : Running s) (opnd : Value) :
    performWord (mkCmd hdr opnd) s = .next (raiseFatal .illegalCommand s) := by
  obtain ⟨e, he⟩ := decode_mkCmd_eq_error.2 h
  rw [performWord, he]
  exact whenRunning_running hr

/-! ## The operand the encoder writes -/

@[simp] theorem cmdOpnd_encode (i : Instr) : cmdOpnd (encode i) = i.opndField := cmdOpnd_mkCmd _ _

/-- A byte in the low eight bits of the operand leaves OPND[63:8] zero (R92). -/
theorem setWidth_and_high_eq_zero (b : Byte) : b.setWidth 64 &&& 0xFFFFFFFFFFFFFF00#64 = 0#64 := by
  have hb : b.setWidth 64 = 0#56 ++ b := BitVec.setWidth_eq_append (by decide)
  have hmask : 0xFFFFFFFFFFFFFF00#64 = BitVec.allOnes 56 ++ 0#8 := by decide
  rw [hb, hmask, BitVec.and_append]
  simp

end Sys2Proof.Proofs
end

section
/-! PROOFS. The statements of the family spec/30_encoding.md. -/

namespace Sys2Proof.Proofs

open Sys2Proof.Machine

/-- Settles O2, row by row; the other headers are illegal by the ranges of R87. -/
theorem decoderFollowsTheOpcodeMap : Obligations.DecoderFollowsTheOpcodeMap := by
  refine ⟨decode_squirtByte, decode_squirtInt, decode_squirtFixed32, decode_suckByte, decode_suckInt,
    decode_suckFixed32, decode_selectLength, fun op len opnd h => ?_⟩
  rw [decode_mkCmd_eq_error, isIllegalHeader_append]
  rcases h with rfl | hop | ⟨hop, hlen⟩
  · exact .inl rfl
  · exact .inr (.inl hop)
  · have hlen' : len.toNat ≠ 0 := fun h0 => hlen (BitVec.eq_of_toNat_eq h0)
    rcases hop with rfl | rfl | rfl | rfl | rfl <;> exact .inr (.inr ⟨by decide, by decide, hlen'⟩)

/-- Settles O3: an illegal word is `raiseFatal`, on which the caller does not advance. -/
theorem illegalHeadersHaltTheCodec : Obligations.IllegalHeadersHaltTheCodec := by
  refine ⟨fun hdr opnd => decode_mkCmd_eq_error, fun hdr opnd s hill hr => performWord_illegal hill hr opnd,
    fun hdr opnd s u hill hr hi => ?_⟩
  have ⟨hturn, _, _⟩ := hi
  have hru : Running u := by
    rw [callersTurn_frame hturn]
    exact hr
  rw [step_callerIssues hi (performWord_illegal hill hru opnd), callerAdvance_fatal rfl]
  rfl

/-- Settles O6: words that decode alike act alike, and a word decodes without the operand bits its command ignores. -/
theorem ignoredOperandBitsHaveNoEffect : Obligations.IgnoredOperandBitsHaveNoEffect := by
  refine ⟨fun a b s h => performWord_congr ?_ s,
    fun hdr a b s h => performWord_congr (decode_read_ignores_opnd h a b) s, fun b => ?_, cmdOpnd_encode _,
    fun len => cmdOpnd_encode _, cmdOpnd_encode _⟩
  · rw [decode_squirtByte, decode_squirtByte, h]
  · rw [cmdOpnd_encode]
    exact setWidth_and_high_eq_zero b

end Sys2Proof.Proofs
end

section
/-! SUPPORT. Bit counts as bounds (spec/00_scope.md R13, R14), the length SELECT_LENGTH gives
(spec/40_length_selector.md R110), and the bytes of a field as a number (spec/42_integer_encoder.md R140 to R142,
spec/43_integer_decoder.md R164). -/

namespace Sys2Proof.Proofs

open Sys2Proof.Machine

/-! ## Bit counts -/

/-- The model's search for the bit length finds Mathlib's. -/
theorem bitlength_eq_size (v : Value) : bitlength v = Nat.size v.toNat := by
  have hmin : ∀ n < Nat.size v.toNat, 2 ^ n ≤ v.toNat := fun n => Nat.lt_size.1
  have hsize : Nat.size v.toNat ≤ 64 := Nat.size_le.2 v.isLt
  have hfind : (List.range 65).find? (fun n => decide (v.toNat < 2 ^ n)) = some (Nat.size v.toNat) := by
    rw [List.find?_range_eq_some]
    simpa [Nat.lt_size_self, Nat.lt_succ_iff, hsize] using hmin
  rw [bitlength, hfind, Option.getD_some]

theorem bitlength_le_iff {v : Value} {n : Nat} : bitlength v ≤ n ↔ v.toNat < 2 ^ n := by
  rw [bitlength_eq_size, Nat.size_le]

theorem minbytes_le_iff {v : Value} {n : Nat} (hn : 1 ≤ n) : minbytes v ≤ n ↔ bitlength v ≤ 8 * n := by
  unfold minbytes
  omega

/-! ## The length SELECT_LENGTH gives -/

/-- The bits of a value from `n` on are clear exactly below `2 ^ n`. -/
theorem extractLsb'_high_eq_zero_iff {n m : Nat} (v : Value) (hnm : n + m = 64) :
    v.extractLsb' n m = 0#m ↔ v.toNat < 2 ^ n := by
  have hquot : v.toNat / 2 ^ n < 2 ^ m := Nat.div_lt_of_lt_mul (by rw [← Nat.pow_add, hnm]; exact v.isLt)
  rw [BitVec.toNat_eq, BitVec.extractLsb'_toNat, Nat.shiftRight_eq_div_pow, Nat.mod_eq_of_lt hquot, BitVec.toNat_zero,
    Nat.div_eq_zero_iff_lt (Nat.two_pow_pos n)]

/-- The selected length by numeric bounds (R111). -/
theorem canonicalLength_eq (v : Value) : canonicalLength v =
    if v.toNat < 2 ^ 8 then .one else if v.toNat < 2 ^ 16 then .two
    else if v.toNat < 2 ^ 32 then .four else .eight := by
  simp only [canonicalLength, extractLsb'_high_eq_zero_iff]

theorem isLegalLength_bytes (l : Length) : isLegalLength l.bytes := by
  cases l <;> decide

/-- The selected length is the least legal one that holds all the bits (R111). -/
theorem canonicalLength_le_iff {v : Value} {len : Nat} (hlegal : isLegalLength len) :
    (canonicalLength v).bytes ≤ len ↔ bitlength v ≤ 8 * len := by
  have hv := v.isLt
  rw [bitlength_le_iff, canonicalLength_eq]
  rcases hlegal with rfl | rfl | rfl | rfl <;> split_ifs <;> simp only [Length.bytes] <;> omega

theorem exec_selectLength_running {s : State} (v : Value) (hr : Running s) :
    exec (.selectLength v) s =
      .next { s with rsp := .doneValue (BitVec.ofNat 64 (canonicalLength v).bytes) } :=
  whenRunning_running hr

/-! ## The bytes of a field as a number -/

/-- The low `n` bytes of a value, most significant first, stand for it modulo `2 ^ (8 * n)`. -/
theorem bigEndianNat_lowBytes (v : Value) (n : Nat) :
    bigEndianNat ((List.range n).map fun i => v.extractLsb' (8 * (n - 1 - i)) 8) = v.toNat % 2 ^ (8 * n) := by
  induction n with
  | zero => simp [bigEndianNat, Nat.mod_one]
  | succ n ih =>
    have htop : (v.extractLsb' (8 * n) 8).toNat = v.toNat / 2 ^ (8 * n) % 2 ^ 8 := by
      rw [BitVec.extractLsb'_toNat, Nat.shiftRight_eq_div_pow]
    simp only [Nat.sub_sub, Nat.add_comm 1] at ih
    calc bigEndianNat ((List.range (n + 1)).map fun i => v.extractLsb' (8 * (n + 1 - 1 - i)) 8)
        = v.toNat / 2 ^ (8 * n) % 2 ^ 8 * 2 ^ (8 * n) + v.toNat % 2 ^ (8 * n) := by
          simp [List.range_succ_eq_map, Function.comp_def, bigEndianNat, ih, htop]
      _ = v.toNat % 2 ^ (8 * (n + 1)) := by
          rw [Nat.mul_succ, Nat.pow_add, Nat.mod_mul]
          ring

theorem fieldValue_fieldBytes (l : Length) (v : Value) :
    fieldValue (fieldBytes l v) = BitVec.ofNat 64 (v.toNat % 2 ^ (8 * l.bytes)) :=
  congrArg (BitVec.ofNat 64) (bigEndianNat_lowBytes v l.bytes)

/-- A value survives the truncation to `n` bits exactly when they hold all of it (R142). -/
theorem ofNat_mod_eq_iff {v : Value} {n : Nat} :
    BitVec.ofNat 64 (v.toNat % 2 ^ n) = v ↔ bitlength v ≤ n := by
  have hlt : v.toNat % 2 ^ n < 2 ^ 64 := (Nat.mod_le _ _).trans_lt v.isLt
  rw [BitVec.toNat_eq, BitVec.toNat_ofNat, Nat.mod_eq_of_lt hlt, bitlength_le_iff, Nat.mod_eq_iff_lt (by simp)]

/-! ## Writing a field and reading it back -/

theorem squirt_room {s : State} {bs : List Byte} (hroom : RoomFor bs.length s) :
    squirt bs s = { s with outbuf := s.outbuf ++ bs, rsp := .done } := by
  rw [squirt, if_pos ((hasRoom_iff _ _).2 hroom)]
  rfl

theorem exec_squirtInt_room {s : State} {l : Length} (hr : Running s) (hroom : RoomFor l.bytes s) (v : Value) :
    exec (.squirtInt v l.bytes) s = .next { s with outbuf := s.outbuf ++ fieldBytes l v, rsp := .done } := by
  refine (whenRunning_running hr).trans ?_
  rw [← fieldBytes_length l v] at hroom
  rw [← squirt_room hroom]
  cases l <;> rfl

/-- Reading back a written field gives the value modulo `2 ^ (8 * len)`, whatever follows it in the stream (R164). -/
theorem exec_squirtInt_suckInt {s r : State} {len : Nat} (hlegal : isLegalLength len) (hs : Running s)
    (hroom : RoomFor len s) (hr : Running r) (v : Value) :
    ∃ bs, exec (.squirtInt v len) s = .next { s with outbuf := s.outbuf ++ bs, rsp := .done } ∧
      ∀ rest, exec (.suckInt len) { r with inbuf := bs ++ rest } =
        .next { r with inbuf := rest, rsp := .doneValue (BitVec.ofNat 64 (v.toNat % 2 ^ (8 * len))) } := by
  obtain ⟨l, -, rfl, -⟩ | ⟨-, hbad⟩ := lengthOf_cases len
  · refine ⟨fieldBytes l v, exec_squirtInt_room hs hroom v, fun rest => ?_⟩
    rw [← fieldValue_fieldBytes]
    exact exec_suckInt_append hlegal hr (fieldBytes_length l v) rfl
  · exact absurd hlegal hbad

end Sys2Proof.Proofs
end

section
/-! PROOFS. The statements of the family spec/40_length_selector.md. -/

namespace Sys2Proof.Proofs

open Sys2Proof.Machine

/-- Settles O7: the bit tests of the pseudocode are the numeric bounds, and a `LEN` other than 0000 is illegal. -/
theorem selectLengthFollowsItsRule : Obligations.SelectLengthFollowsItsRule := by
  refine ⟨decode_selectLength, fun v s hr => ?_, fun len opnd s hlen hr => ?_⟩
  · rw [exec_selectLength_running v hr, canonicalLength_eq]
    split_ifs <;> rfl
  · have hlen' : len.toNat ≠ 0 := fun h0 => hlen (BitVec.eq_of_toNat_eq h0)
    exact performWord_illegal (isIllegalHeader_append.2 (.inr (.inr ⟨by decide, by decide, hlen'⟩))) hr opnd

/-- Settles O14: a legal length is at least `minbytes v` exactly when it is at least the selected one. -/
theorem selectedLengthIsMinbytesRoundedUp : Obligations.SelectedLengthIsMinbytesRoundedUp := by
  intro v s hr
  have hleast : ∀ len, isLegalLength len → (minbytes v ≤ len ↔ (canonicalLength v).bytes ≤ len) := by
    intro len hlegal
    rw [minbytes_le_iff (by omega), canonicalLength_le_iff hlegal]
  have hlegal := isLegalLength_bytes (canonicalLength v)
  exact ⟨_, hlegal, (hleast _ hlegal).2 le_rfl, fun len' hlegal' => (hleast len' hlegal').1,
    exec_selectLength_running v hr⟩

/-- Settles O15: the value read back is the value modulo `2 ^ (8 * len)`, which is the value exactly when `len` is at
least the selected length. -/
theorem selectedLengthLosesNoBits : Obligations.SelectedLengthLosesNoBits := by
  intro v s r hs hr
  have hlegal := isLegalLength_bytes (canonicalLength v)
  have hbits : bitlength v ≤ 8 * (canonicalLength v).bytes := (canonicalLength_le_iff hlegal).1 le_rfl
  refine ⟨_, hlegal, hbits, exec_selectLength_running v hs, fun hroom => ?_, fun len' hlegal' hlt => ?_⟩
  · obtain ⟨bs, hwrite, hread⟩ := exec_squirtInt_suckInt hlegal hs hroom hr v
    have hback := hread []
    rw [List.append_nil, ofNat_mod_eq_iff.2 hbits] at hback
    exact ⟨bs, hwrite, hback⟩
  · have hlost : ¬ bitlength v ≤ 8 * len' := fun hle => hlt.not_ge ((canonicalLength_le_iff hlegal').2 hle)
    refine ⟨not_le.1 hlost, fun hroom => ?_⟩
    obtain ⟨bs, hwrite, hread⟩ := exec_squirtInt_suckInt hlegal' hs hroom hr v
    have hback := hread []
    rw [List.append_nil] at hback
    exact ⟨bs, _, hwrite, hback, fun heq => hlost (ofNat_mod_eq_iff.1 heq)⟩

end Sys2Proof.Proofs
end

section
/-! SUPPORT. When a write and a read are Blocked (spec/20_memory.md R53, R56), what the byte commands and every read of a
legal width run (spec/41_byte_codec.md R120, R126; spec/43_integer_decoder.md R160, R168), and the headers made illegal by
their `LEN` (spec/30_encoding.md R87). -/

namespace Sys2Proof.Proofs

open Sys2Proof.Machine

/-! ## Blocked, or all the bytes -/

theorem squirt_noRoom {s : State} {bs : List Byte} (h : NoRoomFor bs.length s) :
    squirt bs s = { s with rsp := .blocked } := by
  rw [squirt, (not_hasRoom_iff _ _).2 h]
  rfl

theorem suck_short {s : State} {n : Nat} (value : List Byte → Value) (h : s.inbuf.length < n) :
    suck n value s = { s with rsp := .blocked } := by
  rcases suck_cases n value s with ⟨-, hblocked⟩ | ⟨henough, -⟩
  · exact hblocked
  · exact absurd h henough.not_gt

theorem suck_enough {s : State} {n : Nat} (value : List Byte → Value) (h : n ≤ s.inbuf.length) :
    suck n value s = { s with inbuf := s.inbuf.drop n, rsp := .doneValue (value (s.inbuf.take n)) } := by
  rcases suck_cases n value s with ⟨hshort, -⟩ | ⟨-, hread⟩
  · exact absurd hshort h.not_gt
  · exact hread

/-! ## What the commands run -/

theorem exec_squirtByte_running {s : State} (b : Byte) (hr : Running s) :
    exec (.squirtByte b) s = .next (squirt [b] s) :=
  whenRunning_running hr

theorem exec_suckByte_running {s : State} (hr : Running s) : exec .suckByte s = .next (suck 1 byteValue s) :=
  whenRunning_running hr

/-- A read command of legal width is one all-or-nothing read of that width; only the reading of the bytes differs. -/
theorem exec_read_running {i : Instr} {n : Nat} (hw : readWidth i = some n) (hlegal : isLegalLength n) :
    ∃ value, ∀ s, Running s → exec i s = .next (suck n value s) := by
  cases i with
  | suckByte => cases hw; exact ⟨byteValue, fun s hr => exec_suckByte_running hr⟩
  | suckFixed32 => cases hw; exact ⟨fixed32Value, fun s hr => whenRunning_running hr⟩
  | suckInt len =>
    cases hw
    rcases lengthOf_cases n with ⟨l, hl, rfl, -⟩ | ⟨-, hbad⟩
    · exact ⟨fieldValue, fun s hr => (whenRunning_running hr).trans (by rw [hl])⟩
    · exact absurd hlegal hbad
  | squirtByte | squirtInt | squirtFixed32 | selectLength => cases hw

theorem byteValue_singleton (b : Byte) : byteValue [b] = BitVec.ofNat 64 b.toNat :=
  (BitVec.ofNat_toNat 64 b).symm

/-! ## Illegal headers of a fixed-length command -/

theorem isIllegalHeader_of_len_ne_zero {op len : BitVec 4} (h2 : op.toNat ≠ 2) (h5 : op.toNat ≠ 5)
    (hlen : len ≠ 0x0#4) : IsIllegalHeader (op ++ len) :=
  isIllegalHeader_append.2 (.inr (.inr ⟨h2, h5, fun h0 => hlen (BitVec.eq_of_toNat_eq h0)⟩))

end Sys2Proof.Proofs
end

section
/-! PROOFS. The statements of the family spec/41_byte_codec.md. -/

namespace Sys2Proof.Proofs

open Sys2Proof.Machine

/-- Settles O8: the command is the all-or-nothing write of its one byte. -/
theorem squirtByteFollowsItsRule : Obligations.SquirtByteFollowsItsRule := by
  refine ⟨decode_squirtByte, fun b s hr hroom => ?_, fun b s hr hfull => ?_, fun len opnd s hlen hr => ?_⟩
  · rw [exec_squirtByte_running b hr, squirt_room (bs := [b]) hroom]
  · rw [exec_squirtByte_running b hr, squirt_noRoom (bs := [b]) hfull]
  · exact performWord_illegal (isIllegalHeader_of_len_ne_zero (by decide) (by decide) hlen) hr opnd

/-- Settles O9: the command is the all-or-nothing read of the one byte at the front of the input stream. -/
theorem suckByteFollowsItsRule : Obligations.SuckByteFollowsItsRule := by
  refine ⟨decode_suckByte, fun b rest s hr hin => ?_, fun s hr hempty => ?_, fun len opnd s hlen hr => ?_⟩
  · have hread := suck_append (bs := [b]) byteValue hin
    rw [byteValue_singleton] at hread
    exact (exec_suckByte_running hr).trans (congrArg _ hread)
  · have hshort : s.inbuf.length < 1 := by simp [hempty]
    rw [exec_suckByte_running hr, suck_short byteValue hshort]
  · exact performWord_illegal (isIllegalHeader_of_len_ne_zero (by decide) (by decide) hlen) hr opnd

/-- Settles O21: every read command is one `suck` of its width. -/
theorem readsAreAllOrNothing : Obligations.ReadsAreAllOrNothing := by
  intro i n s hw hlegal hr
  obtain ⟨value, hexec⟩ := exec_read_running hw hlegal
  rw [hexec s hr]
  exact ⟨fun hshort => by rw [suck_short value hshort], fun henough => ⟨_, by rw [suck_enough value henough]⟩⟩

end Sys2Proof.Proofs
end

section
/-! SUPPORT. What the general commands run on any state and what the write commands share
(spec/42_integer_encoder.md R140, R144), the bytes and the number a field stands for (R141 to R143; spec/43_integer_decoder.md R161), and how the special forms
agree with them (spec/42_integer_encoder.md R149, spec/43_integer_decoder.md R169). -/

namespace Sys2Proof.Proofs

open Sys2Proof.Machine

/-! ## What the commands run -/

theorem exists_bytes_eq {len : Nat} (hlegal : isLegalLength len) : ∃ l : Length, l.bytes = len := by
  rcases lengthOf_cases len with ⟨l, -, hbytes, -⟩ | ⟨-, hbad⟩
  · exact ⟨l, hbytes⟩
  · exact absurd hlegal hbad

theorem exec_squirtInt_bytes (v : Value) (l : Length) (s : State) :
    exec (.squirtInt v l.bytes) s = whenRunning s (squirt (fieldBytes l v) s) := by
  cases l <;> rfl

theorem exec_suckInt_bytes (l : Length) (s : State) :
    exec (.suckInt l.bytes) s = whenRunning s (suck l.bytes fieldValue s) := by
  cases l <;> rfl

theorem exec_squirtInt_badLength {len : Nat} (hbad : ¬ isLegalLength len) (v : Value) (s : State) :
    exec (.squirtInt v len) s = whenRunning s (raiseFatal .badLength s) := by
  rcases lengthOf_cases len with ⟨-, -, -, hlegal⟩ | ⟨hnone, -⟩
  · exact absurd hlegal hbad
  · rw [exec, execSquirtInt, hnone]

/-- A write command of legal width is one all-or-nothing write of that many bytes; only the bytes differ. -/
theorem exec_write_running {i : Instr} {n : Nat} (hw : writeWidth i = some n) (hlegal : isLegalLength n) :
    ∃ bs : List Byte, bs.length = n ∧ ∀ s, Running s → exec i s = .next (squirt bs s) := by
  cases i with
  | squirtByte b => cases hw; exact ⟨[b], rfl, fun s hr => exec_squirtByte_running b hr⟩
  | squirtFixed32 v => cases hw; exact ⟨fixed32Bytes v, rfl, fun s hr => whenRunning_running hr⟩
  | squirtInt v len =>
    cases hw
    obtain ⟨l, rfl⟩ := exists_bytes_eq hlegal
    exact ⟨fieldBytes l v, fieldBytes_length l v,
      fun s hr => (exec_squirtInt_bytes v l s).trans (whenRunning_running hr)⟩
  | suckByte | suckInt | suckFixed32 | selectLength => cases hw

/-- A read sees its bytes through their value only. -/
theorem suck_congr {n : Nat} {value value' : List Byte → Value} (h : ∀ bs, bs.length = n → value bs = value' bs)
    (s : State) : suck n value s = suck n value' s := by
  rcases lt_or_ge s.inbuf.length n with hshort | henough
  · rw [suck_short value hshort, suck_short value' hshort]
  · rw [suck_enough value henough, suck_enough value' henough, h _ (List.length_take_of_le henough)]

/-! ## The bytes of a field -/

theorem extractLsb'_eq_ofNat_div (v : Value) (k : Nat) : v.extractLsb' k 8 = BitVec.ofNat 8 (v.toNat / 2 ^ k) := by
  rw [BitVec.extractLsb', Nat.shiftRight_eq_div_pow]

/-- Byte `i` of a field as a quotient (R141). -/
theorem getElem?_fieldBytes {l : Length} {i : Nat} (v : Value) (hi : i < l.bytes) :
    (fieldBytes l v)[i]? = some (BitVec.ofNat 8 (v.toNat / 2 ^ (8 * (l.bytes - 1 - i)))) := by
  rw [← extractLsb'_eq_ofNat_div]
  simp [fieldBytes, fieldByte, hi]

/-- The four bytes as quotients (R148). -/
theorem fixed32Bytes_eq_quotients (v : Value) : fixed32Bytes v =
    [BitVec.ofNat 8 (v.toNat / 2 ^ 24), BitVec.ofNat 8 (v.toNat / 2 ^ 16), BitVec.ofNat 8 (v.toNat / 2 ^ 8),
      BitVec.ofNat 8 v.toNat] := by
  simp only [fixed32Bytes, extractLsb'_eq_ofNat_div, Nat.pow_zero, Nat.div_one]

theorem fixed32Bytes_eq_fieldBytes (v : Value) : fixed32Bytes v = fieldBytes .four v := rfl

theorem fieldBytes_one_setWidth (b : Byte) : fieldBytes .one (b.setWidth 64) = [b] := by
  have hbyte : (b.setWidth 64).extractLsb' 0 8 = b :=
    (BitVec.extractLsb'_setWidth_of_le (by decide)).trans BitVec.extractLsb'_eq_self
  exact congrArg (fun x => [x]) hbyte

/-- Dropping the bits from `m` on leaves a byte that ends below bit `m` as it is. -/
theorem ofNat_div_mod {n k m : Nat} (hk : k + 8 ≤ m) :
    BitVec.ofNat 8 (n % 2 ^ m / 2 ^ k) = BitVec.ofNat 8 (n / 2 ^ k) := by
  refine BitVec.eq_of_toNat_eq ?_
  rw [BitVec.toNat_ofNat, BitVec.toNat_ofNat, ← Nat.mod_mul_right_div_self, ← Nat.mod_mul_right_div_self,
    ← Nat.pow_add, Nat.mod_mod_of_dvd _ (Nat.pow_dvd_pow 2 hk)]

/-- The bits of a value from `8 * L` on reach no byte of its field (R142). -/
theorem fieldBytes_congr {l : Length} {v w : Value}
    (h : v.toNat % 2 ^ (8 * l.bytes) = w.toNat % 2 ^ (8 * l.bytes)) : fieldBytes l v = fieldBytes l w := by
  refine List.map_congr_left fun i hi => ?_
  have hin : 8 * (l.bytes - 1 - i) + 8 ≤ 8 * l.bytes := by
    have hlt : i < l.bytes := List.mem_range.1 hi
    omega
  rw [fieldByte, fieldByte, extractLsb'_eq_ofNat_div, extractLsb'_eq_ofNat_div, ← ofNat_div_mod hin, h,
    ofNat_div_mod hin]

/-! ## The number a field stands for -/

/-- The model's recursion over the bytes is the sum of R161. -/
theorem bigEndianSum_eq_bigEndianNat (bs : List Byte) : bigEndianSum bs.length bs = bigEndianNat bs := by
  induction bs with
  | nil => rfl
  | cons b bs ih =>
    rw [bigEndianNat, ← ih, bigEndianSum, bigEndianSum, List.length_cons, Finset.sum_range_succ', Nat.add_comm]
    simp [Nat.sub_sub, Nat.add_comm]

theorem bigEndianSum_fieldBytes (l : Length) (v : Value) :
    bigEndianSum l.bytes (fieldBytes l v) = v.toNat % 2 ^ (8 * l.bytes) := by
  have hsum := bigEndianSum_eq_bigEndianNat (fieldBytes l v)
  rw [fieldBytes_length] at hsum
  exact hsum.trans (bigEndianNat_lowBytes v l.bytes)

theorem byteValue_eq_fieldValue {bs : List Byte} (hlen : bs.length = 1) : byteValue bs = fieldValue bs := by
  obtain ⟨b, rfl⟩ := List.length_eq_one_iff.1 hlen
  rw [byteValue_singleton, fieldValue]
  simp [bigEndianNat]

theorem bigEndianNat_lt (bs : List Byte) : bigEndianNat bs < 2 ^ (8 * bs.length) := by
  induction bs with
  | nil => decide
  | cons b bs ih =>
    have hb : (b.toNat + 1) * 2 ^ (8 * bs.length) ≤ 2 ^ 8 * 2 ^ (8 * bs.length) := Nat.mul_le_mul_right _ b.isLt
    rw [← Nat.pow_add, Nat.add_mul] at hb
    rw [bigEndianNat, List.length_cons, Nat.mul_succ, Nat.add_comm (8 * _)]
    omega

/-- The bytes of a field share no bit, so the sum is also a bitwise or. -/
theorem bigEndianNat_cons_eq_or (b : Byte) (bs : List Byte) :
    bigEndianNat (b :: bs) = b.toNat <<< (8 * bs.length) ||| bigEndianNat bs := by
  rw [← Nat.shiftLeft_add_eq_or_of_lt (bigEndianNat_lt bs), Nat.shiftLeft_eq, bigEndianNat]

/-- A byte moved to its place in 32 bits loses nothing (R168). -/
theorem setWidth_shiftLeft_byte {k : Nat} (b : Byte) (hk : k ≤ 24) :
    (b.setWidth 32 <<< k).setWidth 64 = BitVec.ofNat 64 (b.toNat <<< k) := by
  have hplace : b.toNat <<< k < 2 ^ 32 := by
    calc b.toNat <<< k = b.toNat * 2 ^ k := Nat.shiftLeft_eq _ _
      _ < 2 ^ 8 * 2 ^ 24 :=
        Nat.mul_lt_mul_of_lt_of_le b.isLt (Nat.pow_le_pow_right (by decide) hk) (by decide)
      _ = 2 ^ 32 := rfl
  rw [← BitVec.ofNat_toNat, BitVec.toNat_shiftLeft, BitVec.toNat_setWidth_of_le (by decide), Nat.mod_eq_of_lt hplace]

theorem fixed32Value_eq_fieldValue {bs : List Byte} (hlen : bs.length = 4) : fixed32Value bs = fieldValue bs := by
  obtain ⟨b0, b1, b2, b3, rfl⟩ := List.length_eq_four.1 hlen
  have hor : bigEndianNat [b0, b1, b2, b3] =
      b0.toNat <<< 24 ||| b1.toNat <<< 16 ||| b2.toNat <<< 8 ||| b3.toNat := by
    rw [bigEndianNat_cons_eq_or, bigEndianNat_cons_eq_or, bigEndianNat_cons_eq_or, bigEndianNat_cons_eq_or]
    simp [bigEndianNat, Nat.or_assoc]
  rw [fieldValue, hor]
  simp [fixed32Value, BitVec.setWidth_or, BitVec.ofNat_or, setWidth_shiftLeft_byte]

theorem toNat_fixed32Value_lt (bs : List Byte) : (fixed32Value bs).toNat < 2 ^ 32 := by
  rw [fixed32Value, BitVec.toNat_setWidth_of_le (by decide)]
  exact BitVec.isLt _

end Sys2Proof.Proofs
end

section
/-! PROOFS. The statements of the family spec/42_integer_encoder.md. -/

namespace Sys2Proof.Proofs

open Sys2Proof.Machine

/-- Settles O22: every write command is one `squirt` of its bytes. -/
theorem writesAreAllOrNothing : Obligations.WritesAreAllOrNothing := by
  intro i n s hw hlegal hr
  obtain ⟨bs, rfl, hexec⟩ := exec_write_running hw hlegal
  rw [hexec s hr]
  refine ⟨fun hroom => ⟨bs, rfl, by rw [squirt_room hroom]⟩, fun hfull => by rw [squirt_noRoom hfull],
    fun hunbounded c hc => ?_⟩
  rw [hunbounded] at hc
  cases hc

/-- Settles O10: a legal length is the all-or-nothing write of the field's bytes, any other the fatal sequence. -/
theorem squirtIntFollowsItsRule : Obligations.SquirtIntFollowsItsRule := by
  refine ⟨decode_squirtInt, fun v len s hlegal hr hroom => ?_, fun v len s hlegal hr hfull => ?_,
    fun v len s hbad hr => ?_⟩
  · obtain ⟨l, rfl⟩ := exists_bytes_eq hlegal
    exact ⟨fieldBytes l v, fieldBytes_length l v, fun i hi => getElem?_fieldBytes v hi,
      exec_squirtInt_room hr hroom v⟩
  · obtain ⟨-, hblocked, -⟩ := writesAreAllOrNothing (.squirtInt v len) len s rfl hlegal hr
    exact hblocked hfull
  · exact (exec_squirtInt_badLength hbad v s).trans (whenRunning_running hr)

/-- Settles O11: the command is the all-or-nothing write of four bytes, each a quotient of the value. -/
theorem squirtFixed32FollowsItsRule : Obligations.SquirtFixed32FollowsItsRule := by
  refine ⟨decode_squirtFixed32, fun v s hr hroom => ?_, fun v s hr hfull => ?_, fun len opnd s hlen hr => ?_⟩
  · rw [← fixed32Bytes_eq_quotients]
    exact (whenRunning_running hr).trans (congrArg _ (squirt_room hroom))
  · obtain ⟨-, hblocked, -⟩ := writesAreAllOrNothing (.squirtFixed32 v) 4 s rfl (by decide) hr
    exact hblocked hfull
  · exact performWord_illegal (isIllegalHeader_of_len_ne_zero (by decide) (by decide) hlen) hr opnd

/-- Settles O17: the field's bytes stand for the value modulo `2 ^ (8 * len)` and depend on nothing else of it. -/
theorem truncationKeepsTheLowBytes : Obligations.TruncationKeepsTheLowBytes := by
  refine ⟨fun v len s hlegal hr hroom => ?_, fun v len hbits => Nat.mod_eq_of_lt (bitlength_le_iff.1 hbits),
    fun v w len s h => ?_⟩
  · obtain ⟨l, rfl⟩ := exists_bytes_eq hlegal
    exact ⟨fieldBytes l v, fieldBytes_length l v, bigEndianSum_fieldBytes l v, exec_squirtInt_room hr hroom v⟩
  · by_cases hlegal : isLegalLength len
    · obtain ⟨l, rfl⟩ := exists_bytes_eq hlegal
      rw [exec_squirtInt_bytes, exec_squirtInt_bytes, fieldBytes_congr h]
    · rw [exec_squirtInt_badLength hlegal, exec_squirtInt_badLength hlegal]

/-- Settles O18: a special form writes the bytes of the general one, and reads the value the general one gives the
same bytes. -/
theorem specialFormsEqualGeneralForms : Obligations.SpecialFormsEqualGeneralForms := by
  refine ⟨fun v s => ?_, fun s => ?_, fun b s => ?_, fun s => ?_, fun s t v hexec hv => ?_⟩
  · calc exec (.squirtFixed32 v) s
        = whenRunning s (squirt (fieldBytes .four v) s) := by rw [← fixed32Bytes_eq_fieldBytes]; rfl
      _ = exec (.squirtInt v 4) s := (exec_squirtInt_bytes v .four s).symm
  · calc exec .suckFixed32 s
        = whenRunning s (suck 4 fieldValue s) :=
          congrArg (whenRunning s) (suck_congr (fun _ => fixed32Value_eq_fieldValue) s)
      _ = exec (.suckInt 4) s := (exec_suckInt_bytes .four s).symm
  · calc exec (.squirtByte b) s
        = whenRunning s (squirt (fieldBytes .one (b.setWidth 64)) s) := by rw [fieldBytes_one_setWidth]; rfl
      _ = exec (.squirtInt (b.setWidth 64) 1) s := (exec_squirtInt_bytes _ .one s).symm
  · calc exec .suckByte s
        = whenRunning s (suck 1 fieldValue s) :=
          congrArg (whenRunning s) (suck_congr (fun _ => byteValue_eq_fieldValue) s)
      _ = exec (.suckInt 1) s := (exec_suckInt_bytes .one s).symm
  · obtain ⟨-, rfl⟩ := whenRunning_eq_next.1 hexec
    rcases suck_cases 4 fixed32Value s with ⟨-, hblocked⟩ | ⟨-, hread⟩
    · rw [hblocked] at hv
      cases hv
    · rw [hread] at hv
      cases hv
      exact toNat_fixed32Value_lt _

end Sys2Proof.Proofs
end

section
/-! SUPPORT. What SUCK_INT gives as the sum of the stream's first bytes (spec/43_integer_decoder.md R160, R161), what the
caller's turn makes of it (spec/10_state.md R36), and a run of producer moves (R33). -/

namespace Sys2Proof.Proofs

open Sys2Proof.Machine

/-! ## The value of a read -/

/-- The sum looks at the first `len` bytes only. -/
theorem bigEndianSum_take (len : Nat) (bs : List Byte) : bigEndianSum len (bs.take len) = bigEndianSum len bs := by
  refine Finset.sum_congr rfl fun i hi => ?_
  simp [List.getD_eq_getElem?_getD, List.getElem?_take_of_lt (Finset.mem_range.1 hi)]

theorem fieldValue_eq_sum {bs : List Byte} {len : Nat} (hlen : bs.length = len) :
    fieldValue bs = BitVec.ofNat 64 (bigEndianSum len bs) := by
  rw [← hlen, bigEndianSum_eq_bigEndianNat, fieldValue]

theorem bigEndianSum_lt {bs : List Byte} {len : Nat} (hlen : bs.length = len) :
    bigEndianSum len bs < 2 ^ (8 * len) := by
  rw [← hlen, bigEndianSum_eq_bigEndianNat]
  exact bigEndianNat_lt bs

/-- A field of legal length fits in 64 bits, so its value is the sum itself (R163). -/
theorem toNat_fieldValue {bs : List Byte} {len : Nat} (hlegal : isLegalLength len) (hlen : bs.length = len) :
    (fieldValue bs).toNat = bigEndianSum len bs := by
  have hwidth : 8 * len ≤ 64 := by omega
  have hfits : bigEndianSum len bs < 2 ^ 64 :=
    (bigEndianSum_lt hlen).trans_le (Nat.pow_le_pow_right (by decide) hwidth)
  rw [fieldValue_eq_sum hlen, BitVec.toNat_ofNat, Nat.mod_eq_of_lt hfits]

theorem toNat_byteValue_lt (bs : List Byte) : (byteValue bs).toNat < 2 ^ 8 := by
  rw [byteValue, BitVec.toNat_setWidth_of_le (by decide)]
  exact BitVec.isLt _

/-- The four bytes of SUCK_FIXED32 as a sum (R168). -/
theorem fixed32Value_eq_sum (b0 b1 b2 b3 : Byte) : fixed32Value [b0, b1, b2, b3] =
    BitVec.ofNat 64 (b0.toNat * 2 ^ 24 + b1.toNat * 2 ^ 16 + b2.toNat * 2 ^ 8 + b3.toNat) := by
  rw [fixed32Value_eq_fieldValue rfl, fieldValue]
  simp [bigEndianNat, Nat.add_assoc]

/-! ## What SUCK_INT does -/

theorem exec_suckInt_badLength {len : Nat} (hbad : ¬ isLegalLength len) (s : State) :
    exec (.suckInt len) s = whenRunning s (raiseFatal .badLength s) := by
  rcases lengthOf_cases len with ⟨-, -, -, hlegal⟩ | ⟨hnone, -⟩
  · exact absurd hlegal hbad
  · rw [exec, execSuckInt, hnone]

theorem exec_suckInt_short {len : Nat} {s : State} (hlegal : isLegalLength len) (hr : Running s)
    (hshort : s.inbuf.length < len) : exec (.suckInt len) s = .next { s with rsp := .blocked } :=
  (readsAreAllOrNothing (.suckInt len) len s rfl hlegal hr).1 hshort

theorem exec_suckInt_enough {len : Nat} {s : State} (hlegal : isLegalLength len) (hr : Running s)
    (henough : len ≤ s.inbuf.length) : exec (.suckInt len) s =
      .next { s with inbuf := s.inbuf.drop len, rsp := .doneValue (BitVec.ofNat 64 (bigEndianSum len s.inbuf)) } := by
  have htake : (s.inbuf.take len).length = len := List.length_take_of_le henough
  rw [exec_suckInt_append hlegal hr htake (List.take_append_drop len s.inbuf).symm, fieldValue_eq_sum htake,
    bigEndianSum_take]

/-! ## The caller's turn with a SUCK_INT -/

theorem performWord_of_decode {cw : CmdWord} {i : Instr} (hd : decode cw = .ok i) (s : State) :
    performWord cw s = exec i s := by
  rw [performWord, hd]

theorem step_suckInt_short {s u : State} {cw : CmdWord} {len : Nat} (hi : CallerIssues s u cw)
    (hd : decode cw = .ok (.suckInt len)) (hlegal : isLegalLength len) (hr : Running u)
    (hshort : u.inbuf.length < len) : step s = .next { u with rsp := .blocked, phase := .held } := by
  have hword := (performWord_of_decode hd u).trans (exec_suckInt_short hlegal hr hshort)
  exact (step_callerIssues hi hword).trans (congrArg _ (callerAdvance_blocked hr rfl))

theorem step_suckInt_enough {s u : State} {cw : CmdWord} {len : Nat} (hi : CallerIssues s u cw)
    (hd : decode cw = .ok (.suckInt len)) (hlegal : isLegalLength len) (hr : Running u)
    (henough : len ≤ u.inbuf.length) : step s = .next { u with
      inbuf := u.inbuf.drop len, rsp := .doneValue (BitVec.ofNat 64 (bigEndianSum len u.inbuf)),
      pc := u.pc + 1, phase := .ready } := by
  have hword := (performWord_of_decode hd u).trans (exec_suckInt_enough hlegal hr henough)
  exact (step_callerIssues hi hword).trans (congrArg _ (callerAdvance_done hr (.inr ⟨_, rfl⟩)))

/-! ## Runs -/

theorem run_succ {M : Host.Core} {s t : M.State} (h : M.step s = .next t) (k : Nat) :
    M.run (k + 1) s = M.run k t := by
  rw [Host.Core.run, h]

theorem run_core_succ {s t : State} (h : step s = .next t) (k : Nat) :
    Host.Core.run core (k + 1) s = Host.Core.run core k t :=
  run_succ (M := core) h k

theorem afterStream_ne_cancelled {p : CallerPhase} (h : p ≠ .cancelled) : p.afterStream ≠ .cancelled := by
  cases p with
  | ready | held | retrying => nofun
  | cancelled => exact absurd rfl h

/-- Producer moves append their bytes in order; but for the agenda they leave the rest alone, and a caller that has not
cancelled stays so (R33). -/
theorem run_produceMoves {chunks : List (List Byte)} {later : List Move} (hchunks : ∀ c ∈ chunks, c ≠ [])
    (k : Nat) {s : State} (ha : s.agenda = chunks.map .produce ++ later) (hphase : s.phase ≠ .cancelled) :
    ∃ p, p ≠ CallerPhase.cancelled ∧ Host.Core.run core (chunks.length + k) s =
      Host.Core.run core k
        ({ s with inbuf := s.inbuf ++ chunks.flatten, phase := p, agenda := later } : State) := by
  induction chunks generalizing s with
  | nil =>
    refine ⟨s.phase, hphase, ?_⟩
    rw [List.map_nil, List.nil_append] at ha
    simp [← ha]
  | cons c chunks ih =>
    obtain ⟨hc, hchunks⟩ := List.forall_mem_cons.1 hchunks
    have hstep := step_produce ha hc
    obtain ⟨p, hp, hrun⟩ := ih hchunks (s := { s with
      inbuf := s.inbuf ++ c, phase := s.phase.afterStream, agenda := chunks.map .produce ++ later }) rfl
      (afterStream_ne_cancelled hphase)
    refine ⟨p, hp, ?_⟩
    rw [List.length_cons, Nat.add_right_comm, List.flatten_cons, ← List.append_assoc]
    exact (run_core_succ hstep _).trans hrun

end Sys2Proof.Proofs
end

section
/-! PROOFS. The statements of the family spec/43_integer_decoder.md. -/

namespace Sys2Proof.Proofs

open Sys2Proof.Machine

/-- Settles O12: a legal length is the all-or-nothing read of the field's bytes, any other the fatal sequence. -/
theorem suckIntFollowsItsRule : Obligations.SuckIntFollowsItsRule := by
  refine ⟨decode_suckInt, fun len bs rest s hlegal hr hlen hin => ?_,
    fun len s hlegal hr hshort => exec_suckInt_short hlegal hr hshort, fun len s hbad hr => ?_⟩
  · rw [exec_suckInt_append hlegal hr hlen hin, fieldValue_eq_sum hlen]
  · exact (exec_suckInt_badLength hbad s).trans (whenRunning_running hr)

/-- Settles O13: the command is the all-or-nothing read of four bytes, whose 32-bit value is their sum. -/
theorem suckFixed32FollowsItsRule : Obligations.SuckFixed32FollowsItsRule := by
  refine ⟨decode_suckFixed32, fun b0 b1 b2 b3 rest s hr hin => ?_, fun s hr hshort => ?_,
    fun len opnd s hlen hr => ?_⟩
  · rw [← fixed32Value_eq_sum]
    exact (whenRunning_running hr).trans (congrArg _ (suck_append (bs := [b0, b1, b2, b3]) fixed32Value hin))
  · exact (readsAreAllOrNothing .suckFixed32 4 s rfl (by decide) hr).1 hshort
  · exact performWord_illegal (isIllegalHeader_of_len_ne_zero (by decide) (by decide) hlen) hr opnd

/-- Settles O16: the read gives the value modulo `2 ^ (8 * len)`, which loses nothing when `len` bytes hold it. -/
theorem integerRoundTrip : Obligations.IntegerRoundTrip := by
  intro v len s r hlegal hs hroom hr
  obtain ⟨bs, hwrite, hread⟩ := exec_squirtInt_suckInt hlegal hs hroom hr v
  exact ⟨bs, hwrite, hread, ofNat_mod_eq_iff.2⟩

/-- Settles O19: the sum of `len` bytes is below `2 ^ (8 * len)`, so 64 bits hold it; one byte is below `2 ^ 8`. -/
theorem readValuesStayInRange : Obligations.ReadValuesStayInRange := by
  refine ⟨fun len bs rest s hlegal hr hlen hin => ?_, fun s t v hexec hv => ?_⟩
  · have hvalue := toNat_fieldValue hlegal hlen
    exact ⟨_, exec_suckInt_append hlegal hr hlen hin, hvalue, hvalue.trans_lt (bigEndianSum_lt hlen)⟩
  · obtain ⟨-, rfl⟩ := whenRunning_eq_next.1 hexec
    rcases suck_cases 1 byteValue s with ⟨-, hblocked⟩ | ⟨-, hread⟩
    · rw [hblocked] at hv
      cases hv
    · rw [hread] at hv
      cases hv
      exact (extractLsb'_high_eq_zero_iff _ rfl).2 (toNat_byteValue_lt _)

/-- Settles O26: the Blocked read left the stream as it was, the producer moves append to it, and the same word then
finds its bytes at the front. -/
theorem blockedReadResumesAfterInput : Obligations.BlockedReadResumesAfterInput := by
  intro cw len s chunks later hd hlegal hr hphase hword hshort hchunks henough ha
  have hblocked := step_suckInt_short ⟨.inr ⟨_, ha, rfl⟩, hphase, hword⟩ hd hlegal hr hshort
  refine ⟨_, hblocked, rfl, rfl, rfl, ?_⟩
  obtain ⟨p, hp, hrun⟩ := run_produceMoves hchunks 1
    (s := { s with rsp := .blocked, phase := .held, agenda := chunks.map .produce ++ .issue :: later }) rfl nofun
  have hread := step_suckInt_enough
    (s := { s with inbuf := s.inbuf ++ chunks.flatten, rsp := .blocked, phase := p, agenda := .issue :: later })
    ⟨.inr ⟨later, rfl, rfl⟩, hp, hword⟩ hd hlegal hr henough
  exact ⟨_, hrun.trans (run_core_succ hread 0), rfl, rfl, rfl, rfl⟩

end Sys2Proof.Proofs
end

section
/-! SUPPORT. The outcome of a command by the first of its checks that fails (spec/60_exceptions.md R187): an illegal
header (R182), a length no field has (R184), a stream without the bytes or the room (R192), or none. -/

namespace Sys2Proof.Proofs

open Sys2Proof.Machine

theorem performWord_of_decode_error {cw : CmdWord} {e : IllegalHeader} (hd : decode cw = .error e) (s : State) :
    performWord cw s = whenRunning s (raiseFatal .illegalCommand s) := by
  rw [performWord, hd]

/-- The length is checked before either stream is looked at (R145, R160). -/
theorem exec_badLength {i : Instr} {s : State} {len : Nat} (hr : Running s) (hl : lengthOperand i = some len)
    (hbad : ¬ isLegalLength len) : exec i s = .next (raiseFatal .badLength s) := by
  cases i with
  | squirtInt v len => cases hl; exact (exec_squirtInt_badLength hbad v s).trans (whenRunning_running hr)
  | suckInt len => cases hl; exact (exec_suckInt_badLength hbad s).trans (whenRunning_running hr)
  | squirtByte | squirtFixed32 | suckByte | suckFixed32 | selectLength => cases hl

/-- A bad length is the only way a command, once decoded, is fatal. -/
theorem exec_fatal {i : Instr} {s t : State} (h : exec i s = .next t) (ht : t.status.fatal = true) :
    ∃ len, lengthOperand i = some len ∧ ¬ isLegalLength len := by
  obtain ⟨hr, he⟩ := exec_effect h
  cases he with
  | badLength len hl hbad => exact ⟨len, hl, hbad⟩
  | blocked | wrote | read | selected => exact absurd (hr.symm.trans ht) Bool.false_ne_true

theorem writeWidth_isLegalLength {i : Instr} {n : Nat} (hw : writeWidth i = some n)
    (hok : ∀ len, lengthOperand i = some len → isLegalLength len) : isLegalLength n := by
  cases i with
  | squirtByte => cases hw; decide
  | squirtFixed32 => cases hw; decide
  | squirtInt v len => cases hw; exact hok _ rfl
  | suckByte | suckInt | suckFixed32 | selectLength => cases hw

theorem not_noRoomFor {n : Nat} {s : State} (h : RoomFor n s) : ¬ NoRoomFor n s := by
  rintro ⟨c, hc, hfull⟩
  exact absurd hfull (h c hc).not_gt

theorem exec_blocked {i : Instr} {s : State} {n : Nat} (hr : Running s)
    (hok : ∀ len, lengthOperand i = some len → isLegalLength len)
    (hw : (readWidth i = some n ∧ s.inbuf.length < n) ∨ (writeWidth i = some n ∧ NoRoomFor n s)) :
    exec i s = .next { s with rsp := .blocked } := by
  rcases hw with ⟨hread, hshort⟩ | ⟨hwrite, hfull⟩
  · exact (readsAreAllOrNothing i n s hread (readWidth_isLegalLength hread hok) hr).1 hshort
  · exact (writesAreAllOrNothing i n s hwrite (writeWidth_isLegalLength hwrite hok) hr).2.1 hfull

/-- A command that passes every check is performed, and STATUS stays as it was. -/
theorem exec_performed {i : Instr} {s : State} (hr : Running s)
    (hok : ∀ len, lengthOperand i = some len → isLegalLength len)
    (hin : ∀ n, readWidth i = some n → n ≤ s.inbuf.length) (hroom : ∀ n, writeWidth i = some n → RoomFor n s) :
    ∃ t, exec i s = .next t ∧ t.status = s.status ∧ (t.rsp = .done ∨ ∃ v, t.rsp = .doneValue v) := by
  obtain ⟨t, h⟩ := exec_running (i := i) hr
  refine ⟨t, h, ?_⟩
  cases (exec_effect h).2 with
  | badLength len hl hbad => exact absurd (hok len hl) hbad
  | blocked n _ hw =>
    rcases hw with ⟨hread, hshort⟩ | ⟨hwrite, hfull⟩
    · exact absurd hshort (hin n hread).not_gt
    · exact absurd hfull (not_noRoomFor (hroom n hwrite))
  | wrote => exact ⟨rfl, .inl rfl⟩
  | read n v | selected v => exact ⟨rfl, .inr ⟨v, rfl⟩⟩

end Sys2Proof.Proofs
end

section
/-! PROOFS. The statements of the family spec/60_exceptions.md. -/

namespace Sys2Proof.Proofs

open Sys2Proof.Machine

/-- Settles O23: of the ways a word ends, only the Blocked one leaves RSP Blocked on a running codec. -/
theorem blockedChangesOnlyTheResponse : Obligations.BlockedChangesOnlyTheResponse :=
  fun _ _ _ h ht hb => performWord_blocked h ht hb

/-- Settles O27, check by check in the order of R187. -/
theorem firstFailingCheckDecides : Obligations.FirstFailingCheckDecides := by
  refine fun cw s => ⟨performWord_halted, fun hr e hd => ?_, fun hr i hd => ?_⟩
  · exact (performWord_of_decode_error hd s).trans (whenRunning_running hr)
  · rw [performWord_of_decode hd]
    exact ⟨fun len hl hbad => exec_badLength hr hl hbad,
      fun hok => ⟨fun n hw => exec_blocked hr hok hw, exec_performed hr hok⟩⟩

/-- Settles O28: a bad length runs the fatal sequence, and no other command ends with FATAL = 1. -/
theorem badLengthIsRaisedExactlyForBadLengths : Obligations.BadLengthIsRaisedExactlyForBadLengths :=
  fun _ _ hr => ⟨fun h => exec_fatal h rfl, fun ⟨_, hl, hbad⟩ => exec_badLength hr hl hbad⟩

/-- Settles O29: a fatal word is `raiseFatal` with one of the two causes, and the state it leaves is halted. -/
theorem fatalChangesOnlyStatus : Obligations.FatalChangesOnlyStatus := by
  refine fun cw s t h ht => ⟨?_, fun cw' => performWord_halted ht⟩
  obtain ⟨c, hc, rfl⟩ := performWord_fatal h ht
  exact ⟨c.code, hc.imp (congrArg Cause.code) (congrArg Cause.code), rfl⟩

end Sys2Proof.Proofs
end

section
/-! SUPPORT. The decoder and the encoder on the parts of a word: the header's fields name the command, the operands fill
it, and the encoder writes both back (spec/30_encoding.md R81, R82, R84, R91, R92). -/

namespace Sys2Proof.Proofs

/-! ## From a command to its word -/

theorem decodeHeader_encode (i : Instr) : decodeHeader (i.opcode.op ++ i.lenField) = .ok i.opcode := by
  rw [decodeHeader, hdrOp_append, hdrLen_append]
  cases i <;> rfl

theorem toNat_ofNat_of_lenFits {len : Nat} (h : lenFits len = true) : (BitVec.ofNat 4 len).toNat = len :=
  (BitVec.toNat_ofNat len 4).trans (Nat.mod_eq_of_lt (of_decide_eq_true h))

/-- A length of four bits and a byte in a 64-bit operand both come back whole (R81, R82). -/
theorem withOperands_fields {i : Instr} (h : i.wf = true) : withOperands i.opcode i.lenField i.opndField = i := by
  cases i with
  | squirtByte b =>
    exact congrArg Instr.squirtByte ((BitVec.extractLsb'_setWidth_of_le (by decide)).trans BitVec.extractLsb'_eq_self)
  | squirtInt v len => exact congrArg (Instr.squirtInt v) (toNat_ofNat_of_lenFits h)
  | suckInt len => exact congrArg Instr.suckInt (toNat_ofNat_of_lenFits h)
  | squirtFixed32 | suckByte | suckFixed32 | selectLength => rfl

/-! ## From a word to its command -/

@[simp] theorem opcode_withOperands (opcode : Opcode) (len : BitVec 4) (opnd : Value) :
    (withOperands opcode len opnd).opcode = opcode := by
  cases opcode <;> rfl

theorem wf_withOperands (opcode : Opcode) (len : BitVec 4) (opnd : Value) :
    (withOperands opcode len opnd).wf = true := by
  cases opcode with
  | squirtInt | suckInt => exact decide_eq_true len.isLt
  | squirtByte | squirtFixed32 | suckByte | suckFixed32 | selectLength => rfl

theorem fixedLen_eq_ok {opcode opcode' : Opcode} {len : BitVec 4} (h : fixedLen opcode len = .ok opcode') :
    opcode = opcode' ∧ len = 0#4 := by
  unfold fixedLen at h
  split at h
  · cases h
    exact ⟨rfl, ‹_›⟩
  · cases h

/-- A header that names a command holds its `OP`, and a zero `LEN` where the command's is fixed (R84, R85). -/
theorem decodeHeader_eq_ok {hdr : Header} {opcode : Opcode} (h : decodeHeader hdr = .ok opcode) :
    hdrOp hdr = opcode.op ∧ (opcode ≠ .squirtInt → opcode ≠ .suckInt → hdrLen hdr = 0#4) := by
  unfold decodeHeader at h
  split at h
  case h_2 hop | h_5 hop =>
    cases h
    exact ⟨BitVec.eq_of_toNat_eq hop, by simp⟩
  case h_8 => cases h
  all_goals
    rename_i hop
    obtain ⟨rfl, hlen⟩ := fixedLen_eq_ok h
    exact ⟨BitVec.eq_of_toNat_eq hop, fun _ _ => hlen⟩

/-- The low byte of an operand, zero-extended, is the operand with its other bits cleared (R82). -/
theorem setWidth_extractLsb'_byte (opnd : Value) : (opnd.extractLsb' 0 8).setWidth 64 = opnd &&& 0xFF#64 := by
  have hmask : opnd.toNat &&& 255 = opnd.toNat % 256 := Nat.and_two_pow_sub_one_eq_mod opnd.toNat 8
  refine BitVec.eq_of_toNat_eq ?_
  rw [BitVec.toNat_setWidth_of_le (by decide), BitVec.extractLsb'_toNat, BitVec.toNat_and]
  exact hmask.symm

theorem opndField_withOperands (opcode : Opcode) (len : BitVec 4) (opnd : Value) :
    (withOperands opcode len opnd).opndField = opnd &&& opcode.usedBits := by
  cases opcode with
  | squirtByte => exact setWidth_extractLsb'_byte opnd
  | squirtInt | squirtFixed32 | selectLength => exact BitVec.and_allOnes.symm
  | suckByte | suckInt | suckFixed32 => exact BitVec.and_zero.symm

theorem lenField_withOperands {opcode : Opcode} {len : BitVec 4} (opnd : Value)
    (h : opcode ≠ .squirtInt → opcode ≠ .suckInt → len = 0#4) : (withOperands opcode len opnd).lenField = len := by
  cases opcode with
  | squirtInt | suckInt => exact (BitVec.ofNat_toNat 4 len).trans (BitVec.setWidth_eq len)
  | squirtByte | squirtFixed32 | suckByte | suckFixed32 | selectLength => exact (h nofun nofun).symm

end Sys2Proof.Proofs
end

section
/-! PROOFS. The statements about encoding and decoding as a whole. -/

namespace Sys2Proof.Proofs

/-- Settles O4: the header names the command, and its fields are the operands. -/
theorem decodeAfterEncodeIsIdentity : Obligations.DecodeAfterEncodeIsIdentity := by
  intro i hwf
  rw [encode, decode_mkCmd_ok (decodeHeader_encode i), hdrLen_append, withOperands_fields hwf]

/-- Settles O5: of a word's fields the encoder writes back the header, and the operand bits the command kept. -/
theorem decodedWordsAreEncodings : Obligations.DecodedWordsAreEncodings := by
  intro cw i h
  unfold decode at h
  split at h
  case h_2 => cases h
  case h_1 opcode hhdr =>
    cases h
    obtain ⟨hop, hlen⟩ := decodeHeader_eq_ok hhdr
    refine ⟨wf_withOperands _ _ _, ?_⟩
    rw [encode, opcode_withOperands, lenField_withOperands _ hlen, opndField_withOperands, ← hop, hdr_fields]

/-- Settles O1: each word is a header of its command's row and an operand. -/
theorem wordsWrittenOutDecode : Obligations.WordsWrittenOutDecode :=
  ⟨decode_squirtByte 0x1AB#64, decode_squirtInt 0x4#4 0x01020304#64, decode_squirtFixed32 0xDEADBEEFCAFEBABE#64,
    decode_suckByte 0xFFFFFFFFFFFFFFFF#64, decode_suckInt 0x3#4 0#64, decode_suckFixed32 0#64,
    decode_selectLength 0x12345#64⟩

end Sys2Proof.Proofs
end

section
/-! SUPPORT. What a performed word does to the output sink, what the caller makes of a completed word, and what each
clause of the invariants needs of a step (spec/10_state.md R36 to R38; spec/20_memory.md R55, R56). -/

namespace Sys2Proof.Proofs

open Sys2Proof.Machine

/-! ## A performed word and the caller's reaction -/

/-- The output sink after a word: as it was, or with the bytes a write appended to it, which it had room for (R56). -/
theorem performWord_outbuf {cw : CmdWord} {s t : State} (h : performWord cw s = .next t) : t.outbuf = s.outbuf ∨
    ∃ i bs, decode cw = .ok i ∧ writeWidth i = some bs.length ∧ isLegalLength bs.length ∧ RoomFor bs.length s ∧
      t.outbuf = s.outbuf ++ bs ∧ t.rsp = .done := by
  rcases performWord_eq_next h with ⟨e, -, -, rfl⟩ | ⟨i, hd, hx⟩
  · exact .inl rfl
  · cases (exec_effect hx).2 with
    | badLength | blocked | read | selected => exact .inl rfl
    | wrote bs hok hw hroom =>
      exact .inr ⟨i, bs, hd, hw, writeWidth_isLegalLength hw hok, hroom, rfl, rfl⟩

/-- After a completed word the caller has advanced, or waits with the word Blocked (R36). -/
theorem callerAdvance_completed {cw : CmdWord} {u v : State} (hp : performWord cw u = .next v) (hv : Running v) :
    ((v.rsp = .done ∨ ∃ w, v.rsp = .doneValue w) ∧ callerAdvance v = { v with pc := v.pc + 1, phase := .ready }) ∨
    (v.rsp = .blocked ∧ callerAdvance v = { u with rsp := .blocked, phase := .held }) := by
  rcases callerAdvance_cases v with ⟨hf, -⟩ | ⟨-, hd, hadv⟩ | ⟨-, hb, hadv⟩ | ⟨-, hn, -⟩
  · cases hv.symm.trans hf
  · exact .inl ⟨hd, hadv⟩
  · exact .inr ⟨hb, by rw [hadv, performWord_blocked hp hv hb]⟩
  · exact absurd hn (performWord_completed hp hv).2

/-- The word issued on a turn is also the word at pc of the state with the turn taken. -/
theorem callerIssues_word {s u : State} {cw : CmdWord} (h : CallerIssues s u cw) : u.program[u.pc]? = some cw := by
  obtain ⟨hturn, -, hword⟩ := h
  rw [callersTurn_frame hturn]
  exact hword

/-! ## The machine's invariant -/

/-- The word a caller issues stands before the program's end. -/
theorem callerIssues_pc_lt {s u : State} {cw : CmdWord} (h : CallerIssues s u cw) : u.pc < u.program.length :=
  (List.getElem?_eq_some_iff.1 (callerIssues_word h)).1

/-- Capacity is kept: what a write appends had the room (R56). -/
theorem performWord_capKept {cw : CmdWord} {s t : State} (h : performWord cw s = .next t)
    (hcap : ∀ c, s.cfg.outCap = some c → s.outbuf.length ≤ c) (c : Nat) (hc : t.cfg.outCap = some c) :
    t.outbuf.length ≤ c := by
  have hcs : s.cfg.outCap = some c := by rwa [performWord_frame h] at hc
  rcases performWord_outbuf h with he | ⟨i, bs, -, -, -, hroom, he, -⟩ <;> rw [he]
  · exact hcap c hcs
  · rw [List.length_append]
    exact hroom c hcs

/-- STATUS after a fatal word is one the invariant admits (R183). -/
theorem machineInv_raiseFatal {s : State} {c : Cause} (h : MachineInv s) (hc : c = .illegalCommand ∨ c = .badLength) :
    MachineInv (raiseFatal c s) where
  causeClear := nofun
  causeRaised _ := hc.imp (congrArg Cause.code) (congrArg Cause.code)
  capKept := h.capKept
  pcInProgram := h.pcInProgram
  waitsForCommand := h.waitsForCommand

/-- The caller that advances was before the program's end, and the one that waits still is. -/
theorem machineInv_callerAdvance {cw : CmdWord} {u v : State} (h : MachineInv u) (hlt : u.pc < u.program.length)
    (hp : performWord cw u = .next v) (hv : Running v) : MachineInv (callerAdvance v) := by
  rcases callerAdvance_completed hp hv with ⟨-, hadv⟩ | ⟨-, hadv⟩ <;> rw [hadv]
  · have hst := (performWord_completed hp hv).1
    have hcap := performWord_capKept hp h.capKept
    have hpc : v.pc + 1 ≤ v.program.length := by
      rw [performWord_frame hp]
      exact hlt
    exact ⟨by rw [hst]; exact h.causeClear, by rw [hst]; exact h.causeRaised, hcap, hpc, fun hne => absurd rfl hne⟩
  · exact ⟨h.causeClear, h.causeRaised, h.capKept, h.pcInProgram, fun _ => hlt⟩

theorem machineInv_turn {s u t : State} (h : MachineInv s) (hturn : CallersTurn s u) (hiss : issue u = .next t) :
    MachineInv t := by
  have hu : MachineInv u := by
    rw [callersTurn_frame hturn]
    exact ⟨h.causeClear, h.causeRaised, h.capKept, h.pcInProgram, h.waitsForCommand⟩
  rcases turn_cases hturn hiss with rfl | ⟨cw, hi, -, ⟨c, hc, rfl, -⟩ | ⟨v, hp, hv, rfl⟩⟩
  · exact hu
  · exact machineInv_raiseFatal hu hc
  · exact machineInv_callerAdvance hu (callerIssues_pc_lt hi) hp hv

/-- A stream step makes no ready caller wait. -/
theorem afterStream_ne_ready {p : CallerPhase} (h : p.afterStream ≠ .ready) : p ≠ .ready := by
  rintro rfl
  exact h rfl

theorem afterStream_ne_held (p : CallerPhase) : p.afterStream ≠ .held := by
  cases p <;> nofun

/-! ## The hold invariant -/

/-- A held command stays Blocked where the caller's word and what it depends on are the same (R37). -/
theorem heldBlocks_congr {s t : State} (h : HeldBlocks s) (hsame : s.phase = .held → SameInputs s t)
    (hprog : t.program = s.program) (hpc : t.pc = s.pc) (hph : t.phase = s.phase) : HeldBlocks t := by
  intro hheld
  rw [hph] at hheld
  obtain ⟨hr, cw, hword, hp⟩ := h hheld
  have hin := hsame hheld
  exact ⟨hin.fatal.symm.trans hr, cw, by rw [hprog, hpc, hword], performWord_blocked_congr hin hp hr rfl⟩

/-- A word answered with Blocked leaves the caller held at a word that is Blocked again (R36, R37). -/
theorem heldBlocks_blocked {cw : CmdWord} {u v : State} (hword : u.program[u.pc]? = some cw)
    (hp : performWord cw u = .next v) (hv : Running v) (hb : v.rsp = .blocked) :
    HeldBlocks { u with rsp := .blocked, phase := .held } :=
  fun _ => ⟨(performWord_effect hp).1, cw, hword, performWord_blocked_congr (s := u) ⟨rfl, rfl, rfl, rfl⟩ hp hv hb⟩

/-- A caller that is not held owes nothing. -/
theorem heldBlocks_of_ne {s : State} (h : s.phase ≠ .held) : HeldBlocks s := fun hheld => absurd hheld h

/-- No word of a held caller is fatal: performed now it is Blocked. -/
theorem heldBlocks_raiseFatal {c : Cause} {cw : CmdWord} {u : State} (h : HeldBlocks u)
    (hword : u.program[u.pc]? = some cw) (hp : performWord cw u = .next (raiseFatal c u)) :
    HeldBlocks (raiseFatal c u) := by
  refine heldBlocks_of_ne fun hheld => ?_
  obtain ⟨hr, cw', hword', hp'⟩ := h hheld
  cases hword.symm.trans hword'
  have hfatal : ¬ Running (raiseFatal c u) := nofun
  rw [Host.Outcome.next.inj (hp.symm.trans hp')] at hfatal
  exact hfatal hr

theorem heldBlocks_turn {s u t : State} (h : HeldBlocks s) (hturn : CallersTurn s u) (hiss : issue u = .next t) :
    HeldBlocks t := by
  have hu : HeldBlocks u := by
    rw [callersTurn_frame hturn]
    exact heldBlocks_congr h (fun _ => ⟨rfl, rfl, rfl, rfl⟩) rfl rfl rfl
  rcases turn_cases hturn hiss with rfl | ⟨cw, hi, -, ⟨c, -, rfl, hp⟩ | ⟨v, hp, hv, rfl⟩⟩
  · exact hu
  · exact heldBlocks_raiseFatal hu (callerIssues_word hi) hp
  · rcases callerAdvance_completed hp hv with ⟨-, hadv⟩ | ⟨hb, hadv⟩ <;> rw [hadv]
    · exact heldBlocks_of_ne nofun
    · exact heldBlocks_blocked (callerIssues_word hi) hp hv hb

end Sys2Proof.Proofs
end

section
/-! PROOFS. The statements about the invariants of the machine. -/

namespace Sys2Proof.Proofs

open Sys2Proof.Machine

/-- Settles O49, move by move: only the caller's turn writes the sink or advances pc. -/
theorem everyStepKeepsTheInvariant : Obligations.EveryStepKeepsTheInvariant := by
  intro s t h hstep
  rcases step_cases hstep with ⟨u, hturn, hiss⟩ | ⟨bs, rest, -, -, rfl⟩ | ⟨k, rest, c, -, -, -, -, rfl⟩ |
    ⟨rest, -, rfl⟩ | ⟨rest, -, hwaits, rfl⟩ | ⟨program, rest, -, rfl⟩
  · exact machineInv_turn h hturn hiss
  · exact ⟨h.causeClear, h.causeRaised, h.capKept, h.pcInProgram,
      fun hne => h.waitsForCommand (afterStream_ne_ready hne)⟩
  · have hdrop : (s.outbuf.drop k).length ≤ s.outbuf.length := List.drop_sublist k s.outbuf |>.length_le
    exact ⟨h.causeClear, h.causeRaised, fun c hc => hdrop.trans (h.capKept c hc), h.pcInProgram,
      fun hne => h.waitsForCommand (afterStream_ne_ready hne)⟩
  · exact ⟨fun _ => rfl, nofun, h.capKept, h.pcInProgram, h.waitsForCommand⟩
  · have hne : s.phase ≠ .ready := by rcases hwaits with hp | hp <;> simp [hp]
    exact ⟨h.causeClear, h.causeRaised, h.capKept, h.pcInProgram, fun _ => h.waitsForCommand hne⟩
  · exact ⟨h.causeClear, h.causeRaised, h.capKept, Nat.zero_le _, fun hne => absurd rfl hne⟩

/-- Settles O50, move by move: a stream step, a cancel and a new program end the hold, and a reset leaves what the held
word depends on, since a held caller's codec runs. -/
theorem heldCommandStaysBlocked : Obligations.HeldCommandStaysBlocked := by
  intro s t h hstep
  rcases step_cases hstep with ⟨u, hturn, hiss⟩ | ⟨bs, rest, -, -, rfl⟩ | ⟨k, rest, c, -, -, -, -, rfl⟩ |
    ⟨rest, -, rfl⟩ | ⟨rest, -, -, rfl⟩ | ⟨program, rest, -, rfl⟩
  · exact heldBlocks_turn h hturn hiss
  · exact heldBlocks_of_ne (afterStream_ne_held s.phase)
  · exact heldBlocks_of_ne (afterStream_ne_held s.phase)
  · exact heldBlocks_congr h (fun hheld => ⟨rfl, rfl, rfl, (h hheld).1⟩) rfl rfl rfl
  · exact heldBlocks_of_ne nofun
  · exact heldBlocks_of_ne nofun

/-- The two stored fields of a STATUS that reads 0x00 are those of reset (R24, R41). -/
theorem status_eq_running {s : State} (h : readStatus s = 0x00#8) : s.status = Status.running := by
  obtain ⟨hfatal, -, hcause⟩ := status_word_fields s.status
  rw [← readStatus, h] at hfatal hcause
  refine status_eq_of_fields _ _ ?_ hcause.symm
  cases hf : s.status.fatal with
  | false => rfl
  | true => simp [hf] at hfatal

theorem machineInv_of_isLaunch {s : State} (h : IsLaunch s) : MachineInv s := by
  obtain ⟨hst, -, hpc, hready, hroom⟩ := h
  have hrun := status_eq_running hst
  have hclear : s.status.cause = Cause.none.code := by rw [hrun]; rfl
  have hfatal : s.status.fatal ≠ true := by rw [hrun]; nofun
  have hstart : s.pc ≤ s.program.length := by rw [hpc]; exact Nat.zero_le _
  exact ⟨fun _ => hclear, fun hf => absurd hf hfatal, hroom, hstart, fun hne => absurd hready hne⟩

theorem heldBlocks_of_isLaunch {s : State} (h : IsLaunch s) : HeldBlocks s := by
  obtain ⟨-, -, -, hready, -⟩ := h
  exact heldBlocks_of_ne (by rw [hready]; nofun)

theorem isLaunch_reset : IsLaunch State.reset := ⟨rfl, rfl, rfl, rfl, nofun⟩

/-- Settles O48: a launch state has STATUS 0x00, a sink within its capacity and a ready caller at pc 0. -/
theorem invariantsHoldAfterReset : Obligations.InvariantsHoldAfterReset :=
  ⟨machineInv_of_isLaunch isLaunch_reset, heldBlocks_of_isLaunch isLaunch_reset, isLaunch_reset,
    fun _ h => ⟨machineInv_of_isLaunch h, heldBlocks_of_isLaunch h⟩⟩

end Sys2Proof.Proofs
end

section
/-! SUPPORT. What a step does to the parameter, the output and the caller's program (spec/10_state.md R34 to R36;
spec/20_memory.md R66), and the caller's turn as an equation for each outcome of its word. -/

namespace Sys2Proof.Proofs

open Sys2Proof.Machine

/-! ## The caller's turn, outcome by outcome -/

theorem issue_eq_fault {s : State} {cw : CmdWord} {f : Fault} (hnext : nextCommand s = some cw)
    (hf : performWord cw s = .fault f) : issue s = .fault f := by
  simp only [issue, hnext, hf]

theorem issue_eq_refused {s : State} {cw : CmdWord} {r : Refusal} (hnext : nextCommand s = some cw)
    (hr : performWord cw s = .refused r) : issue s = .refused r := by
  simp only [issue, hnext, hr]

theorem step_callerIssues_fault {s u : State} {cw : CmdWord} {f : Fault} (h : CallerIssues s u cw)
    (hf : performWord cw u = .fault f) : step s = .fault f := by
  obtain ⟨hturn, hnext⟩ := callerIssues_iff.1 h
  exact (step_callersTurn hturn).trans (issue_eq_fault hnext hf)

theorem step_callerIssues_refused {s u : State} {cw : CmdWord} {r : Refusal} (h : CallerIssues s u cw)
    (hr : performWord cw u = .refused r) : step s = .refused r := by
  obtain ⟨hturn, hnext⟩ := callerIssues_iff.1 h
  exact (step_callersTurn hturn).trans (issue_eq_refused hnext hr)

theorem step_idle {s u : State} (hturn : CallersTurn s u)
    (hidle : s.phase = .cancelled ∨ s.program[s.pc]? = none) : step s = .next u := by
  have hnone : nextCommand u = none := by
    rw [nextCommand_eq_none, callersTurn_frame hturn]
    exact hidle
  rw [step_callersTurn hturn]
  exact issue_eq_next.2 (.inl ⟨hnone, rfl⟩)

/-! ## What the caller's turn leaves -/

/-- The caller's turn leaves the parameter, the delivered bytes and the program, whatever is issued. -/
theorem turn_frame {s u t : State} (hturn : CallersTurn s u) (hiss : issue u = .next t) :
    t.cfg = s.cfg ∧ t.delivered = s.delivered ∧ t.program = s.program := by
  rw [callersTurn_frame hturn] at hiss
  rcases issue_eq_next.1 hiss with ⟨-, rfl⟩ | ⟨cw, v, -, hp, rfl⟩
  · exact ⟨rfl, rfl, rfl⟩
  · rw [callerAdvance_cfg, callerAdvance_delivered, callerAdvance_program, performWord_frame hp]
    exact ⟨rfl, rfl, rfl⟩

/-- On the caller's turn the output log stays, or grows by the bytes of a write that is Done (R66). -/
theorem turn_outLog {s u t : State} (hturn : CallersTurn s u) (hiss : issue u = .next t) : t.outLog = s.outLog ∨
    ∃ cw i bs, CallerIssues s u cw ∧ Running s ∧ decode cw = .ok i ∧ writeWidth i = some bs.length ∧
      isLegalLength bs.length ∧ t.outLog = s.outLog ++ bs ∧ t.rsp = .done := by
  obtain ⟨-, hdel, -⟩ := turn_frame hturn hiss
  have hout : u.outbuf = s.outbuf := by rw [callersTurn_frame hturn]
  simp only [outLog_eq, hdel, List.append_assoc, List.append_cancel_left_eq]
  rcases turn_cases hturn hiss with rfl | ⟨cw, hi, hr, ⟨c, -, rfl, -⟩ | ⟨v, hp, -, rfl⟩⟩
  · exact .inl hout
  · exact .inl hout
  · rw [callerAdvance_outbuf, callerAdvance_rsp, ← hout]
    rcases performWord_outbuf hp with he | ⟨i, bs, hd, hw, hlegal, -, he, hrsp⟩
    · exact .inl he
    · exact .inr ⟨cw, i, bs, hi, hr, hd, hw, hlegal, he, hrsp⟩

/-- On the caller's turn pc stays, or moves by one with a response that is not Blocked (R36). -/
theorem turn_pc {s u t : State} (hturn : CallersTurn s u) (hiss : issue u = .next t) : t.pc = s.pc ∨
    t.pc = s.pc + 1 ∧ (∃ cw, CallerIssues s u cw) ∧ Running s ∧ (t.rsp = .done ∨ ∃ v, t.rsp = .doneValue v) := by
  have hpc : u.pc = s.pc := by rw [callersTurn_frame hturn]
  rcases turn_cases hturn hiss with rfl | ⟨cw, hi, hr, ⟨c, -, rfl, -⟩ | ⟨v, hp, hv, rfl⟩⟩
  · exact .inl hpc
  · exact .inl hpc
  · rcases callerAdvance_completed hp hv with ⟨hd, hadv⟩ | ⟨-, hadv⟩ <;> rw [hadv]
    · have hvpc : v.pc = s.pc := by rw [performWord_frame hp, hpc]
      exact .inr ⟨congrArg (· + 1) hvpc, ⟨cw, hi⟩, hr, hd⟩
    · exact .inl hpc

/-! ## The phase after a stream move -/

theorem produce_phase {bs : List Byte} {s t : State} (h : produce bs s = .next t) :
    t.phase = s.phase.afterStream := by
  unfold produce at h
  split at h
  · cases h
  · cases h
    rfl

theorem drain_phase {k : Nat} {s t : State} (h : drain k s = .next t) : t.phase = s.phase.afterStream := by
  unfold drain at h
  split at h
  · cases h
  · split at h
    · cases h
    · cases h
      rfl

theorem step_stream_phase {s t : State} {m : Move} {rest : List Move} (ha : s.agenda = m :: rest)
    (hm : (∃ bs, m = .produce bs) ∨ ∃ k, m = .drain k) (h : step s = .next t) :
    t.phase = s.phase.afterStream := by
  simp only [step, ha] at h
  rcases hm with ⟨bs, rfl⟩ | ⟨k, rfl⟩
  · exact produce_phase (s := { s with agenda := rest }) h
  · exact drain_phase (s := { s with agenda := rest }) h

theorem afterStream_of_ne_held {p : CallerPhase} (h : p ≠ .held) : p.afterStream = p := by
  cases p with
  | held => exact absurd rfl h
  | ready | retrying | cancelled => rfl

/-! ## Moves of the caller's own, and the placed word -/

theorem step_cancel {s : State} {rest : List Move} (ha : s.agenda = .cancel :: rest)
    (hwaits : s.phase = .held ∨ s.phase = .retrying) :
    step s = .next { s with phase := .cancelled, agenda := rest } := by
  rcases hwaits with hp | hp <;> simp only [step, ha, takeMove, cancel, hp]

/-- What stands before the placed word: the program up to pc, filled up to it. -/
theorem length_placeWord_front (pc : Nat) (program : List CmdWord) :
    (program.take pc ++ List.replicate (pc - program.length) 0#72).length = pc := by
  rw [List.length_append, List.length_take, List.length_replicate]
  omega

theorem getElem?_placeWord_self (cw : CmdWord) (pc : Nat) (program : List CmdWord) :
    (placeWord cw pc program)[pc]? = some cw := by
  have hlen := length_placeWord_front pc program
  rw [placeWord, List.getElem?_append_right hlen.le, hlen, Nat.sub_self, List.getElem?_cons_zero]

theorem getElem?_placeWord_before {k pc : Nat} {program : List CmdWord} (cw : CmdWord) (hpc : k < pc)
    (hk : k < program.length) : (placeWord cw pc program)[k]? = program[k]? := by
  have htake : k < (program.take pc).length := List.length_take ▸ lt_min hpc hk
  rw [placeWord, List.append_assoc, List.getElem?_append_left htake, List.getElem?_take_of_lt hpc]

end Sys2Proof.Proofs
end

section
/-! PROOFS. The statements about what commands and steps leave alone, the caller, and where a run stands. -/

namespace Sys2Proof.Proofs

open Sys2Proof.Machine

/-- Settles O39: the caller's turn appends what its write appended, and a drain moves bytes within the log. -/
theorem outputIsNeverTakenBack : Obligations.OutputIsNeverTakenBack := by
  intro s t hstep
  rcases step_cases hstep with ⟨u, hturn, hiss⟩ | ⟨bs, rest, -, -, rfl⟩ | ⟨k, rest, c, ha, hc, -, -, rfl⟩ |
    ⟨rest, -, rfl⟩ | ⟨rest, -, -, rfl⟩ | ⟨program, rest, -, rfl⟩
  · obtain ⟨hcfg, hdel, -⟩ := turn_frame hturn hiss
    exact ⟨hcfg, (turn_outLog hturn hiss).imp_right fun hwrote => ⟨u, hwrote⟩, .inl hdel⟩
  · exact ⟨rfl, .inl rfl, .inl rfl⟩
  · refine ⟨rfl, .inl ?_, .inr ⟨k, rest, c, ha, hc⟩⟩
    rw [outLog_eq, outLog_eq, List.append_assoc, List.take_append_drop]
  · exact ⟨rfl, .inl rfl, .inl rfl⟩
  · exact ⟨rfl, .inl rfl, .inl rfl⟩
  · exact ⟨rfl, .inl rfl, .inl rfl⟩

/-- Settles O41: of the moves only the caller's turn moves pc, and only a load the program. -/
theorem callerMovesOnlyByResponsesAndLoads : Obligations.CallerMovesOnlyByResponsesAndLoads := by
  intro s t hstep
  rcases step_cases hstep with ⟨u, hturn, hiss⟩ | ⟨bs, rest, -, -, rfl⟩ | ⟨k, rest, c, -, -, -, -, rfl⟩ |
    ⟨rest, -, rfl⟩ | ⟨rest, -, -, rfl⟩ | ⟨program, rest, ha, rfl⟩
  · obtain ⟨-, -, hprog⟩ := turn_frame hturn hiss
    exact .inr ⟨hprog, (turn_pc hturn hiss).imp_right fun ⟨hpc, hissued, hdone⟩ => ⟨hpc, ⟨u, hissued⟩, hdone⟩⟩
  · exact .inr ⟨rfl, .inl rfl⟩
  · exact .inr ⟨rfl, .inl rfl⟩
  · exact .inr ⟨rfl, .inl rfl⟩
  · exact .inr ⟨rfl, .inl rfl⟩
  · exact .inl ⟨program, rest, ha⟩

/-- Settles O47, by the five ways a command ends: each names in its hypotheses the one part it writes beside RSP. -/
theorem commandsTouchOnlyTheirOwnStream : Obligations.CommandsTouchOnlyTheirOwnStream := by
  intro i s t h
  cases (exec_effect h).2 with
  | badLength len hl hbad =>
    exact ⟨rfl, rfl, rfl, rfl, rfl, rfl, fun _ => rfl, fun _ => rfl, fun hok => absurd (hok len hl) hbad⟩
  | wrote bs hok hw hroom =>
    have hwrites : writeWidth i ≠ none := by simp [hw]
    exact ⟨rfl, rfl, rfl, rfl, rfl, rfl, fun _ => rfl, fun hno => absurd hno hwrites, fun _ => rfl⟩
  | read n v hok hw hn =>
    have hreads : readWidth i ≠ none := by simp [hw]
    exact ⟨rfl, rfl, rfl, rfl, rfl, rfl, fun hno => absurd hno hreads, fun _ => rfl, fun _ => rfl⟩
  | blocked | selected => exact ⟨rfl, rfl, rfl, rfl, rfl, rfl, fun _ => rfl, fun _ => rfl, fun _ => rfl⟩

/-- Settles O32: the move is the model's `load`. -/
theorem loadChangesOnlyTheCaller : Obligations.LoadChangesOnlyTheCaller := by
  intro s program rest ha
  simp only [step, ha, takeMove, load]

/-- Settles O42: the caller's reaction sets the phase by the response, and a stream move by `afterStream`. -/
theorem phaseRecordsTheRetryDiscipline : Obligations.PhaseRecordsTheRetryDiscipline := by
  refine ⟨fun s u cw v hi hp hv => ⟨_, step_callerIssues hi hp, ?_⟩, fun s t m rest ha hm hstep => ?_⟩
  · rcases callerAdvance_completed hp hv with ⟨hd, hadv⟩ | ⟨hb, hadv⟩ <;> rw [hadv]
    · have hnb : v.rsp ≠ .blocked := by rcases hd with hd | ⟨w, hd⟩ <;> simp [hd]
      exact ⟨fun hb => absurd hb hnb, fun _ => rfl⟩
    · exact ⟨fun _ => rfl, fun hnb => absurd hb hnb⟩
  · rw [step_stream_phase ha hm hstep]
    exact ⟨fun hheld => by rw [hheld]; rfl, afterStream_of_ne_held⟩

/-- Settles O43, outcome by outcome of the issued word; a word that decodes is performed by `exec`. -/
theorem stepRunsTheDecodedCommand : Obligations.StepRunsTheDecodedCommand := by
  intro s u cw hi
  have hnext := fun t => step_callerIssues (t := t) hi
  have hfault := fun f => step_callerIssues_fault (f := f) hi
  have hrefused := fun r => step_callerIssues_refused (r := r) hi
  refine ⟨hnext, hfault, hrefused, fun i hd => ?_⟩
  rw [← performWord_of_decode hd]
  exact ⟨rfl, hnext, hfault, hrefused⟩

/-- Settles O44: the placed word stands at pc, after the program's words before it. -/
theorem placedWordIsIssuedNext : Obligations.PlacedWordIsIssuedNext := by
  rintro s nbits w cw t rfl rfl
  have hword := getElem?_placeWord_self (tableWord nbits w) s.pc s.program
  exact ⟨⟨.inl ⟨rfl, rfl⟩, nofun, hword⟩, nextCommand_eq_some.2 ⟨nofun, hword⟩, rfl,
    fun k hpc hk => getElem?_placeWord_before _ hpc hk, rfl⟩

/-- Settles O45: a turn without a command is the idle step, and of a running caller's statuses cancelled comes first. -/
theorem cancelledCallerIssuesNothing : Obligations.CancelledCallerIssuesNothing :=
  ⟨fun _ _ => step_cancel, fun _ _ => step_idle, fun s hp hr => by simp [runStatus, hr, hp]⟩

/-- Settles O46: a caller that has cancelled or waits is before the program's end, so no earlier check of `runStatus`
hides a later one. -/
theorem runStatusClassifiesRuns : Obligations.RunStatusClassifiesRuns := by
  intro s h
  have hwaits := h.waitsForCommand
  have hpc := h.pcInProgram
  unfold runStatus
  split_ifs with hf hc hend hheld
  · simp [hf]
  · have hlt := hwaits (by simp [hc])
    simp [hf, hc, hlt.ne]
  · simp [hf, hend]
  · have hlt := hwaits (by simp [hheld])
    simp [hf, hend, hheld, hlt]
  · simp [hf, hend, hheld]

end Sys2Proof.Proofs
end
